-- ==== Sys2Proof/Word.lean ====
section
/-! DEFINITION. The words of the CraneVM CORE: bytes of 8 bits and values of 16 bits (spec rules R6, R7). -/

namespace Sys2Proof

/-- A byte, 8 bits (rule R7). -/
abbrev Byte := BitVec 8

/-- A 16-bit value: register values, addresses, immediates, targets (rules R6, R7). -/
abbrev Word := BitVec 16

end Sys2Proof
end

