-- ==== Sys2Proof/Syntax.lean ====
section
/-! DEFINITION. The instruction set as syntax: the 38 mnemonics, the 4-byte record, one constructor of Instr per row of
spec/opcode_table.json with all 24 operand bits kept (an ignored operand byte may hold any value, rule R77), and the
register names. -/

namespace Sys2Proof

/-- The 38 mnemonics, in the order of the opcode map (rule R76). -/
inductive Mnemonic where
  | nop | add | sub | mul | div | mod | inc | dec
  | and | or | xor | not | shl | shr | eq | neq
  | lt | gt | lte | gte | push | pop | dup | swap
  | jmp | jmpt | jmpf | jz | call | ret | load | store
  | mov | inp | out | lab | sys | halt
  deriving DecidableEq, Repr

/-- The position of a mnemonic in the opcode map of rule R76. It is the index into the table OPC, whose entries are the
opcode numbers; the two agree only in the default table. -/
def Mnemonic.position : Mnemonic → Fin 38
  | .nop => 0
  | .add => 1
  | .sub => 2
  | .mul => 3
  | .div => 4
  | .mod => 5
  | .inc => 6
  | .dec => 7
  | .and => 8
  | .or => 9
  | .xor => 10
  | .not => 11
  | .shl => 12
  | .shr => 13
  | .eq => 14
  | .neq => 15
  | .lt => 16
  | .gt => 17
  | .lte => 18
  | .gte => 19
  | .push => 20
  | .pop => 21
  | .dup => 22
  | .swap => 23
  | .jmp => 24
  | .jmpt => 25
  | .jmpf => 26
  | .jz => 27
  | .call => 28
  | .ret => 29
  | .load => 30
  | .store => 31
  | .mov => 32
  | .inp => 33
  | .out => 34
  | .lab => 35
  | .sys => 36
  | .halt => 37

/-- Every mnemonic, family by family. -/
def Mnemonic.all : List Mnemonic :=
  [.nop, .add, .sub, .mul, .div, .mod, .inc, .dec]
  ++ [.and, .or, .xor, .not, .shl, .shr]
  ++ [.eq, .neq, .lt, .gt, .lte, .gte]
  ++ [.push, .pop, .dup, .swap]
  ++ [.jmp, .jmpt, .jmpf, .jz, .call, .ret]
  ++ [.load, .store, .mov, .inp, .out, .lab, .sys, .halt]

/-- The fixed 4-byte instruction record: one opcode byte and three operand bytes, in address order (rules R70, R71). -/
structure Record where
  opc : Byte
  op0 : Byte
  op1 : Byte
  op2 : Byte
  deriving DecidableEq, Repr

/-- An instruction: one constructor per row of the opcode table. Operand fields by format (rule R75):
RA `r a` (register index op0, address op1:op2), RI `r imm`, R `r x` (x = op1:op2, ignored), T `x target` (x = op0, ignored),
N `x0 x1 x2` (all ignored), X `x status` (x = op0:op1, ignored; status = op2). IN is `inp`, since `in` is a word of Lean. -/
inductive Instr where
  /-- NOP, format N: no operation (rule R224). -/
  | nop (x0 x1 x2 : Byte)
  /-- ADD, format RA: add memory operand to register (rule R101). -/
  | add (r : Byte) (a : Word)
  /-- SUB, format RA: subtract memory operand from register (rule R102). -/
  | sub (r : Byte) (a : Word)
  /-- MUL, format RA: multiply register by memory operand, low 16 bits (rule R103). -/
  | mul (r : Byte) (a : Word)
  /-- DIV, format RA: unsigned quotient of register by memory operand (rule R104). -/
  | div (r : Byte) (a : Word)
  /-- MOD, format RA: unsigned remainder of register by memory operand (rule R105). -/
  | mod (r : Byte) (a : Word)
  /-- INC, format R: add one to register (rule R106). -/
  | inc (r : Byte) (x : Word)
  /-- DEC, format R: subtract one from register (rule R107). -/
  | dec (r : Byte) (x : Word)
  /-- AND, format RA: bitwise and with memory operand (rule R121). -/
  | and (r : Byte) (a : Word)
  /-- OR, format RA: bitwise inclusive or with memory operand (rule R122). -/
  | or (r : Byte) (a : Word)
  /-- XOR, format RA: bitwise exclusive or with memory operand (rule R123). -/
  | xor (r : Byte) (a : Word)
  /-- NOT, format R: bitwise complement of register (rule R124). -/
  | not (r : Byte) (x : Word)
  /-- SHL, format RA: shift register left by a count from memory (rule R125). -/
  | shl (r : Byte) (a : Word)
  /-- SHR, format RA: logical shift register right by a count from memory (rule R126). -/
  | shr (r : Byte) (a : Word)
  /-- EQ, format RA: flag := register = memory operand (rule R141). -/
  | eq (r : Byte) (a : Word)
  /-- NEQ, format RA: flag := register differs from memory operand (rule R142). -/
  | neq (r : Byte) (a : Word)
  /-- LT, format RA: flag := register < memory operand, unsigned (rule R143). -/
  | lt (r : Byte) (a : Word)
  /-- GT, format RA: flag := register > memory operand, unsigned (rule R144). -/
  | gt (r : Byte) (a : Word)
  /-- LTE, format RA: flag := register <= memory operand, unsigned (rule R145). -/
  | lte (r : Byte) (a : Word)
  /-- GTE, format RA: flag := register >= memory operand, unsigned (rule R146). -/
  | gte (r : Byte) (a : Word)
  /-- PUSH, format R: push a register onto the data stack (rule R161). -/
  | push (r : Byte) (x : Word)
  /-- POP, format R: pop the data stack into a register (rule R162). -/
  | pop (r : Byte) (x : Word)
  /-- DUP, format N: duplicate the top byte of the data stack (rule R163). -/
  | dup (x0 x1 x2 : Byte)
  /-- SWAP, format R: exchange a register with the top of the data stack (rule R164). -/
  | swap (r : Byte) (x : Word)
  /-- JMP, format T: unconditional jump (rule R181). -/
  | jmp (x : Byte) (target : Word)
  /-- JMPT, format T: jump if the flag is true (rule R182). -/
  | jmpt (x : Byte) (target : Word)
  /-- JMPF, format T: jump if the flag is false (rule R183). -/
  | jmpf (x : Byte) (target : Word)
  /-- JZ, format T: jump if the flag is zero (rule R184). -/
  | jz (x : Byte) (target : Word)
  /-- CALL, format T: save the return offset and jump (rule R185). -/
  | call (x : Byte) (target : Word)
  /-- RET, format N: return to the newest saved offset (rule R186). -/
  | ret (x0 x1 x2 : Byte)
  /-- LOAD, format RA: copy memory into a register (rule R201). -/
  | load (r : Byte) (a : Word)
  /-- STORE, format RA: copy a register into memory (rule R202). -/
  | store (r : Byte) (a : Word)
  /-- MOV, format RI: load a 16-bit immediate into a register (rule R203). -/
  | mov (r : Byte) (imm : Word)
  /-- IN, format R: read one byte from the input stream into a register (rule R221). -/
  | inp (r : Byte) (x : Word)
  /-- OUT, format R: write the low byte of a register to the output stream (rule R222). -/
  | out (r : Byte) (x : Word)
  /-- LAB, format N: label marker, executes as a no-op (rule R223). -/
  | lab (x0 x1 x2 : Byte)
  /-- SYS, format N: reserved for host calls; faults (rule R225). -/
  | sys (x0 x1 x2 : Byte)
  /-- HALT, format X: stop the CORE and record the exit status (rule R226). -/
  | halt (x : Word) (status : Byte)
  deriving DecidableEq, Repr

/-- The mnemonic of an instruction. -/
def Instr.mnemonic : Instr → Mnemonic
  | .nop _ _ _ => .nop
  | .add _ _ => .add
  | .sub _ _ => .sub
  | .mul _ _ => .mul
  | .div _ _ => .div
  | .mod _ _ => .mod
  | .inc _ _ => .inc
  | .dec _ _ => .dec
  | .and _ _ => .and
  | .or _ _ => .or
  | .xor _ _ => .xor
  | .not _ _ => .not
  | .shl _ _ => .shl
  | .shr _ _ => .shr
  | .eq _ _ => .eq
  | .neq _ _ => .neq
  | .lt _ _ => .lt
  | .gt _ _ => .gt
  | .lte _ _ => .lte
  | .gte _ _ => .gte
  | .push _ _ => .push
  | .pop _ _ => .pop
  | .dup _ _ _ => .dup
  | .swap _ _ => .swap
  | .jmp _ _ => .jmp
  | .jmpt _ _ => .jmpt
  | .jmpf _ _ => .jmpf
  | .jz _ _ => .jz
  | .call _ _ => .call
  | .ret _ _ _ => .ret
  | .load _ _ => .load
  | .store _ _ => .store
  | .mov _ _ => .mov
  | .inp _ _ => .inp
  | .out _ _ => .out
  | .lab _ _ _ => .lab
  | .sys _ _ _ => .sys
  | .halt _ _ => .halt

/-- The names of the 32 registers (rule R13). The machine uses indices only; the names are for a reader (rule R14). -/
inductive RegName where
  | r0 | r1 | r2 | r3 | r4 | r5 | r6 | r7
  | ax | bx | cx | dx | si | di | bp | sp
  | er0 | er1 | er2 | er3 | er4 | er5 | er6 | er7
  | eax | ebx | ecx | edx | esi | edi | ebp | esp
  deriving DecidableEq, Repr

/-- The register index of a name: the listing order is the index order (rule R13). -/
def RegName.index : RegName → Byte
  | .r0 => 0
  | .r1 => 1
  | .r2 => 2
  | .r3 => 3
  | .r4 => 4
  | .r5 => 5
  | .r6 => 6
  | .r7 => 7
  | .ax => 8
  | .bx => 9
  | .cx => 10
  | .dx => 11
  | .si => 12
  | .di => 13
  | .bp => 14
  | .sp => 15
  | .er0 => 16
  | .er1 => 17
  | .er2 => 18
  | .er3 => 19
  | .er4 => 20
  | .er5 => 21
  | .er6 => 22
  | .er7 => 23
  | .eax => 24
  | .ebx => 25
  | .ecx => 26
  | .edx => 27
  | .esi => 28
  | .edi => 29
  | .ebp => 30
  | .esp => 31

end Sys2Proof
end

