-- ==== Sys2Proof/Config.lean ====
section
/-! DEFINITION. The implementation parameters of rule R5: the segment sizes, the depth of the return-address stack and the
opcode-number table OPC, with the constraints a legal instance meets, the reference configuration CFG0, and the one free
value of the model. The segment bases are computed from the sizes, so the segments are contiguous by construction. -/

namespace Sys2Proof

/-- The opcode-number table OPC: entry k is the opcode byte of the mnemonic at position k (rules R5, R76). -/
abbrev OpcodeTable := Vector Byte 38

/-- The opcode byte of a mnemonic under a table. -/
def OpcodeTable.byte (t : OpcodeTable) (m : Mnemonic) : Byte := t.get m.position

/-- The default table of rule R76. -/
def OpcodeTable.default : OpcodeTable :=
  #v[0x00, 0x01, 0x02, 0x03, 0x04, 0x05, 0x06, 0x07, 0x08, 0x09, 0x0A, 0x0B, 0x0C, 0x0D, 0x0E, 0x0F,
     0x10, 0x11, 0x12, 0x13, 0x14, 0x15, 0x16, 0x17, 0x18, 0x19, 0x1A, 0x1B, 0x1C, 0x1D, 0x1E, 0x1F,
     0x20, 0x21, 0x22, 0x23, 0x24, 0x25]

/-- OPC is injective and gives NOP the number 0x00 (rule R5). -/
abbrev OpcodeTable.Legal (t : OpcodeTable) : Prop := t.toList.Nodup ∧ t.byte .nop = 0x00

/-- The record CFG (rule R5). Sizes in bytes; REG_BASE = 0 and the other bases follow from the sizes. -/
structure Config where
  regSize : Nat
  stackSize : Nat
  progSize : Nat
  heapSize : Nat
  c8Size : Nat
  c16Size : Nat
  rasDepth : Nat
  opc : OpcodeTable
  deriving DecidableEq, Repr

namespace Config

/-- REG_BASE (rule R5). -/
def regBase (_ : Config) : Nat := 0
/-- STACK_BASE (rule R5). -/
def stackBase (c : Config) : Nat := c.regBase + c.regSize
/-- STACK_TOP, one past the last byte of the stack segment; equal to PROG_BASE (rule R5). -/
def stackTop (c : Config) : Nat := c.stackBase + c.stackSize
/-- PROG_BASE (rule R5). -/
def progBase (c : Config) : Nat := c.stackBase + c.stackSize
/-- HEAP_BASE (rule R5). -/
def heapBase (c : Config) : Nat := c.progBase + c.progSize
/-- C8_BASE (rule R5). -/
def c8Base (c : Config) : Nat := c.heapBase + c.heapSize
/-- C16_BASE (rule R5). -/
def c16Base (c : Config) : Nat := c.c8Base + c.c8Size
/-- MEM_SIZE, the length of the whole buffer (rule R5). -/
def memSize (c : Config) : Nat := c.c16Base + c.c16Size

/-- The constraints of rule R5 on an instance. Everything the model says of a machine it says of a legal configuration. -/
abbrev Legal (c : Config) : Prop :=
  50 ≤ c.regSize ∧ 1 ≤ c.stackSize ∧ 4 ≤ c.progSize ∧ c.memSize ≤ 65536 ∧ 1 ≤ c.rasDepth ∧ c.opc.Legal

/-- The reference configuration CFG0 (rule R5). -/
def cfg0 : Config where
  regSize := 0x0100
  stackSize := 0x0100
  progSize := 0x4000
  heapSize := 0x8000
  c8Size := 0x0100
  c16Size := 0x0200
  rasDepth := 16
  opc := OpcodeTable.default

/-- DESIGN CHOICE (log entry 6), safe: what `fault.info` holds when CALL overflows with a `ras_count` that does not fit the
16 bits of `fault.info` (rules R30, R185, R248). The spec bounds RAS_DEPTH from below only and states no value there. -/
opaque wideRasCountInfo : Nat → Word

end Config

end Sys2Proof
end

