-- ==== Sys2Proof/WellFormed.lean ====
section
/-! DEFINITION. Well-formed instructions. Every operand triple is a legal encoding (rules R77, R82), and the operand fields
have their exact widths in the types, so ONE check is left: a register operand (formats RA, RI, R) names one of the 32
registers (rules R15, R74, R79). An instruction that fails the check still decodes, and its execution takes the fault
OutOfBounds (rule R79). -/

namespace Sys2Proof

/-- The register operand of an instruction of format RA, RI or R (rule R75). -/
def Instr.registerOperand : Instr → Option Byte
  | .add r _ | .sub r _ | .mul r _ | .div r _ | .mod r _ => some r
  | .inc r _ | .dec r _ | .not r _ => some r
  | .and r _ | .or r _ | .xor r _ | .shl r _ | .shr r _ => some r
  | .eq r _ | .neq r _ | .lt r _ | .gt r _ | .lte r _ | .gte r _ => some r
  | .push r _ | .pop r _ | .swap r _ => some r
  | .load r _ | .store r _ | .mov r _ => some r
  | .inp r _ | .out r _ => some r
  | .jmp _ _ | .jmpt _ _ | .jmpf _ _ | .jz _ _ | .call _ _ => none
  | .nop _ _ _ | .lab _ _ _ | .dup _ _ _ | .ret _ _ _ | .sys _ _ _ => none
  | .halt _ _ => none

/-- A register operand, where there is one, is 0 to 31 (rule R74). -/
def Instr.wellFormed (i : Instr) : Bool :=
  match i.registerOperand with
  | some r => decide (r.toNat < 32)
  | none => true

end Sys2Proof
end

