-- ==== Sys2Proof/Decode.lean ====
section
/-! DEFINITION. Decoding and encoding (30_encoding.md): the byte order of 16-bit fields, the split of four bytes into a
record, the decoder, total on any bytes and rejecting by name, and after it the encoder. Both take the opcode-number table
OPC as an argument (rule R76: "a model should take the numbers from one table"). -/

namespace Sys2Proof

/-! ### Bytes and words, high byte first (rules R7, R47, R74) -/

/-- Concatenation `hi ++ lo`, `hi` the more significant byte (rule R7). -/
def joinBytes (hi lo : Byte) : Word := hi ++ lo

/-- Bits 15..8 of a word. -/
def hiByte (w : Word) : Byte := w.extractLsb' 8 8

/-- Bits 7..0 of a word. -/
def loByte (w : Word) : Byte := w.extractLsb' 0 8

/-- The 32-bit view of four bytes in address order, the first the most significant (rules R44, R71). -/
def joinFour (b0 b1 b2 b3 : Byte) : BitVec 32 := (joinBytes b0 b1) ++ (joinBytes b2 b3)

/-- The split of `I` into `I[31:24]`, `I[23:16]`, `I[15:8]`, `I[7:0]` (rules R71, R290). -/
def Record.ofWord32 (i : BitVec 32) : Record where
  opc := i.extractLsb' 24 8
  op0 := i.extractLsb' 16 8
  op1 := i.extractLsb' 8 8
  op2 := i.extractLsb' 0 8

/-- A record as one 32-bit big-endian word (rule R71). -/
def Record.toWord32 (b : Record) : BitVec 32 := joinFour b.opc b.op0 b.op1 b.op2

/-- The record recorded in `fault` when the fetch itself failed: all four bytes 0 (rules R72, R250). -/
def Record.zero : Record := ⟨0, 0, 0, 0⟩

/-! ### Decode (rules R73 to R78) -/

/-- Why bytes are no instruction. -/
inductive DecodeError where
  /-- The opcode byte is not in the table (rule R78). -/
  | invalidOpcode (opc : Byte)
  /-- Fewer than four bytes: no record (rule R70). A fetch never sees this, since it reads four bytes or faults. -/
  | truncated
  deriving DecidableEq, Repr

/-- The mnemonic whose number in the table is this opcode byte, if any (rules R76, R80). -/
def OpcodeTable.lookup (t : OpcodeTable) (opc : Byte) : Option Mnemonic :=
  Mnemonic.all.find? fun m => t.byte m == opc

/-- The instruction with this mnemonic and these operand bytes, by the formats of rule R75. -/
def Instr.ofOperands (m : Mnemonic) (op0 op1 op2 : Byte) : Instr :=
  match m with
  | .nop => .nop op0 op1 op2
  | .add => .add op0 (joinBytes op1 op2)
  | .sub => .sub op0 (joinBytes op1 op2)
  | .mul => .mul op0 (joinBytes op1 op2)
  | .div => .div op0 (joinBytes op1 op2)
  | .mod => .mod op0 (joinBytes op1 op2)
  | .inc => .inc op0 (joinBytes op1 op2)
  | .dec => .dec op0 (joinBytes op1 op2)
  | .and => .and op0 (joinBytes op1 op2)
  | .or => .or op0 (joinBytes op1 op2)
  | .xor => .xor op0 (joinBytes op1 op2)
  | .not => .not op0 (joinBytes op1 op2)
  | .shl => .shl op0 (joinBytes op1 op2)
  | .shr => .shr op0 (joinBytes op1 op2)
  | .eq => .eq op0 (joinBytes op1 op2)
  | .neq => .neq op0 (joinBytes op1 op2)
  | .lt => .lt op0 (joinBytes op1 op2)
  | .gt => .gt op0 (joinBytes op1 op2)
  | .lte => .lte op0 (joinBytes op1 op2)
  | .gte => .gte op0 (joinBytes op1 op2)
  | .push => .push op0 (joinBytes op1 op2)
  | .pop => .pop op0 (joinBytes op1 op2)
  | .dup => .dup op0 op1 op2
  | .swap => .swap op0 (joinBytes op1 op2)
  | .jmp => .jmp op0 (joinBytes op1 op2)
  | .jmpt => .jmpt op0 (joinBytes op1 op2)
  | .jmpf => .jmpf op0 (joinBytes op1 op2)
  | .jz => .jz op0 (joinBytes op1 op2)
  | .call => .call op0 (joinBytes op1 op2)
  | .ret => .ret op0 op1 op2
  | .load => .load op0 (joinBytes op1 op2)
  | .store => .store op0 (joinBytes op1 op2)
  | .mov => .mov op0 (joinBytes op1 op2)
  | .inp => .inp op0 (joinBytes op1 op2)
  | .out => .out op0 (joinBytes op1 op2)
  | .lab => .lab op0 op1 op2
  | .sys => .sys op0 op1 op2
  | .halt => .halt (joinBytes op0 op1) op2

/-- Decode a record: the opcode byte selects the mnemonic, every operand triple is accepted (rules R71, R73, R77, R78). -/
def decodeRecord (t : OpcodeTable) (b : Record) : Except DecodeError Instr :=
  match t.lookup b.opc with
  | some m => .ok (Instr.ofOperands m b.op0 b.op1 b.op2)
  | none => .error (.invalidOpcode b.opc)

/-- Decode the first record of a byte sequence and return what follows it (rules R70, R93). -/
def decode (t : OpcodeTable) : List Byte → Except DecodeError (Instr × List Byte)
  | b0 :: b1 :: b2 :: b3 :: rest =>
    match decodeRecord t ⟨b0, b1, b2, b3⟩ with
    | .ok i => .ok (i, rest)
    | .error e => .error e
  | _ => .error .truncated

/-! ### Encode (rule R82) -/

/-- The three operand bytes of an instruction, as a triple (op0, op1, op2) (rules R74, R75). -/
def Instr.operands : Instr → Byte × Byte × Byte
  | .nop x0 x1 x2 => (x0, x1, x2)
  | .add r a => (r, hiByte a, loByte a)
  | .sub r a => (r, hiByte a, loByte a)
  | .mul r a => (r, hiByte a, loByte a)
  | .div r a => (r, hiByte a, loByte a)
  | .mod r a => (r, hiByte a, loByte a)
  | .inc r x => (r, hiByte x, loByte x)
  | .dec r x => (r, hiByte x, loByte x)
  | .and r a => (r, hiByte a, loByte a)
  | .or r a => (r, hiByte a, loByte a)
  | .xor r a => (r, hiByte a, loByte a)
  | .not r x => (r, hiByte x, loByte x)
  | .shl r a => (r, hiByte a, loByte a)
  | .shr r a => (r, hiByte a, loByte a)
  | .eq r a => (r, hiByte a, loByte a)
  | .neq r a => (r, hiByte a, loByte a)
  | .lt r a => (r, hiByte a, loByte a)
  | .gt r a => (r, hiByte a, loByte a)
  | .lte r a => (r, hiByte a, loByte a)
  | .gte r a => (r, hiByte a, loByte a)
  | .push r x => (r, hiByte x, loByte x)
  | .pop r x => (r, hiByte x, loByte x)
  | .dup x0 x1 x2 => (x0, x1, x2)
  | .swap r x => (r, hiByte x, loByte x)
  | .jmp x target => (x, hiByte target, loByte target)
  | .jmpt x target => (x, hiByte target, loByte target)
  | .jmpf x target => (x, hiByte target, loByte target)
  | .jz x target => (x, hiByte target, loByte target)
  | .call x target => (x, hiByte target, loByte target)
  | .ret x0 x1 x2 => (x0, x1, x2)
  | .load r a => (r, hiByte a, loByte a)
  | .store r a => (r, hiByte a, loByte a)
  | .mov r imm => (r, hiByte imm, loByte imm)
  | .inp r x => (r, hiByte x, loByte x)
  | .out r x => (r, hiByte x, loByte x)
  | .lab x0 x1 x2 => (x0, x1, x2)
  | .sys x0 x1 x2 => (x0, x1, x2)
  | .halt x status => (hiByte x, loByte x, status)

/-- The four bytes `OPC[mnemonic], op0, op1, op2` of an instruction (rule R82). -/
def encode (t : OpcodeTable) (i : Instr) : Record :=
  ⟨t.byte i.mnemonic, i.operands.1, i.operands.2.1, i.operands.2.2⟩

/-- The bytes of a record in address order (rules R49, R71). -/
def Record.bytes (b : Record) : List Byte := [b.opc, b.op0, b.op1, b.op2]

/-- The binary image of an instruction sequence: a flat sequence of records, no header, no length field (rule R93). -/
def imageOf (t : OpcodeTable) : List Instr → List Byte
  | [] => []
  | i :: is => (encode t i).bytes ++ imageOf t is

/-! ### Words numbered as spec/opcode_table.json numbers them -/

/-- The record whose 32-bit view (opcode in bits 31..24, rule R71) has the low `nbits` bits of `w` and zeros above them.
Every row of the table gives all 32 bits. -/
def tableRecord (nbits w : Nat) : Record := Record.ofWord32 (BitVec.ofNat 32 (w % 2 ^ nbits))

/-- The instruction the decoder reads from a word of the opcode table, under the default table of rule R76. -/
def decodeTableWord (nbits w : Nat) : Option Instr :=
  match decodeRecord OpcodeTable.default (tableRecord nbits w) with
  | .ok i => some i
  | .error _ => none

end Sys2Proof
end

