-- ==== Sys2Proof/Machine/State.lean ====
section
/-! DEFINITION. The state of the CORE as plain data: one field per row of rule R10, and the two parameters of the step that the
spec keeps beside the state, the configuration and the input stream (log entries 1 and 3). The reset state. The named
updates of one field. -/

namespace Sys2Proof.Machine

open Sys2Proof

/-- The memory image as the list of its bytes that differ from what an unlisted address reads as, addresses strictly rising
(Memory.wf in Machine/Ops.lean). The registers, the mirror PCM, the stack, the program and the heap are bytes of it
(rules R11, R12, R41). -/
abbrev Memory := List Host.Cell

/-- The engine state (rule R28). -/
inductive EngineState where
  | loaded | running | halted | faulted
  deriving DecidableEq, Repr

/-- The 2-bit encoding of the engine state (rule R28). -/
def EngineState.code : EngineState → BitVec 2
  | .loaded => 0 | .running => 1 | .halted => 2 | .faulted => 3

/-- The kinds of the CORE's faults (rule R240); `none` is the reset value of the record. -/
inductive FaultKind where
  | none | invalidOpcode | unimplementedOpcode | outOfBounds | sizeMismatch | divideByZero
  | stackUnderflow | stackOverflow | ioError
  deriving DecidableEq, Repr

/-- The 4-bit code of a kind in `fault.kind` (rules R30, R240). -/
def FaultKind.code : FaultKind → BitVec 4
  | .none => 0 | .invalidOpcode => 1 | .unimplementedOpcode => 2 | .outOfBounds => 3 | .sizeMismatch => 4
  | .divideByZero => 5 | .stackUnderflow => 6 | .stackOverflow => 7 | .ioError => 8

/-- The fault record (rules R30, R250). -/
structure FaultRecord where
  kind : FaultKind
  pc : Word
  opc : Byte
  op0 : Byte
  op1 : Byte
  op2 : Byte
  info : Word
  deriving DecidableEq, Repr

/-- All fields 0, the reset value (rule R30). -/
def FaultRecord.zero : FaultRecord := ⟨.none, 0, 0, 0, 0, 0, 0⟩

/-- The state of the CORE (rule R10). `cfg` and `inStream` are the model's own fields: parameters of the step in the spec,
which no instruction changes. -/
@[ext]
structure State where
  /-- The configuration CFG (rule R5). -/
  cfg : Config
  /-- The memory image (rule R11). -/
  mem : Memory
  /-- The program counter, a byte offset into the program segment (rule R20). -/
  pc : Word
  /-- The result of the last comparison instruction (rule R25). -/
  flag : Bool
  /-- The data-stack cursor, an absolute address (rule R26). -/
  sp : Word
  /-- The RAS_DEPTH entries of the return-address stack, oldest first (rule R27). -/
  ras : List Word
  /-- The number of valid entries of `ras` (rule R27). -/
  rasCount : Nat
  /-- The engine state (rule R28). -/
  state : EngineState
  /-- The exit status recorded by HALT (rule R29). -/
  exitCode : Byte
  /-- The record of the fault taken (rule R30). -/
  fault : FaultRecord
  /-- The input stream the environment supplies (rule R31). -/
  inStream : List Byte
  /-- How many bytes of the input stream have been consumed (rule R31). -/
  inPos : Nat
  /-- The bytes written to the output stream, oldest first (rule R31). -/
  out : List Byte
  deriving DecidableEq, Repr

/-- Why there is no next state. Only the step of a CORE that is not Running ends so (rule R291: "No step exists in Loaded,
Halted or Faulted"); the CORE's own faults are next states with `state = faulted` (rule R245). -/
inductive Fault where
  /-- Raised by `step` in Loaded: the host has not given `run` (rule R283). Safe. -/
  | notStarted
  /-- Raised by `step` in Halted: HALT ended the run (rules R226, R257). Safe. -/
  | alreadyHalted
  /-- Raised by `step` in Faulted: a fault ended the run (rule R254). Safe. -/
  | alreadyFaulted
  deriving DecidableEq, Repr

/-- Why an instruction has no meaning in the model. -/
inductive Refusal where
  /-- Raised by an arm of `exec` whose instruction is not modelled yet; no arm of this model raises it. Safe. -/
  | notModelled (mnemonic : String)
  deriving DecidableEq, Repr

/-- What an instruction answers. -/
abbrev Result := Host.Outcome State Fault Refusal

namespace State

/-- The CORE right after reset, under a configuration and with the input stream the environment supplies (rules R33, R280). -/
def resetWith (c : Config) (input : List Byte) : State where
  cfg := c
  mem := []
  pc := 0
  flag := false
  sp := BitVec.ofNat 16 c.stackTop
  ras := List.replicate c.rasDepth 0
  rasCount := 0
  state := .loaded
  exitCode := 0
  fault := .zero
  inStream := input
  inPos := 0
  out := []

/-- The machine right after reset: the reference configuration CFG0 (log entry 2) and an empty input stream (log entry 3). -/
def reset : State := resetWith Config.cfg0 []

/-! ### Updates of one field -/

def setMem (s : State) (v : Memory) : State := { s with mem := v }
def setPc (s : State) (v : Word) : State := { s with pc := v }
def setFlag (s : State) (v : Bool) : State := { s with flag := v }
def setSp (s : State) (v : Word) : State := { s with sp := v }
def setRas (s : State) (v : List Word) : State := { s with ras := v }
def setRasCount (s : State) (v : Nat) : State := { s with rasCount := v }
def setState (s : State) (v : EngineState) : State := { s with state := v }
def setExitCode (s : State) (v : Byte) : State := { s with exitCode := v }
def setFault (s : State) (v : FaultRecord) : State := { s with fault := v }
def setInStream (s : State) (v : List Byte) : State := { s with inStream := v }
def setInPos (s : State) (v : Nat) : State := { s with inPos := v }
def setOut (s : State) (v : List Byte) : State := { s with out := v }

end State

end Sys2Proof.Machine
end

