-- ==== Sys2Proof/Machine/Ops.lean ====
section
/-! DEFINITION. The operations every meaning is built from: the memory image, the accesses MemRead and MemWrite with their
bounds and protection checks, the registers, the stack controller's primitives, the completion of an instruction (program
counter and its mirror) and the taking of a fault. There is no return from a fault (rule R254). -/

namespace Sys2Proof.Machine

open Sys2Proof

/-! ### The memory image -/

/-- What an unlisted address reads as: memory is zero after reset (rules R33, R280). -/
def Memory.unlisted : Byte := 0x00

/-- The byte at an address. -/
def Memory.read : Memory → Nat → Byte
  | [], _ => Memory.unlisted
  | (k, b) :: m, a => if a = k then b else Memory.read m a

/-- Drop every entry of an address. -/
def Memory.erase : Memory → Nat → Memory
  | [], _ => []
  | (k, b) :: m, a => if a = k then Memory.erase m a else (k, b) :: Memory.erase m a

/-- Enter a byte at its place in the rising order. -/
def Memory.enter : Memory → Nat → Byte → Memory
  | [], a, v => [(a, v)]
  | (k, b) :: m, a, v =>
    if a < k then (a, v) :: (k, b) :: m
    else if a = k then (a, v) :: m
    else (k, b) :: Memory.enter m a v

/-- Store a byte, keeping the canonical form: storing what an unlisted address reads as removes the entry. -/
def Memory.write (m : Memory) (a : Nat) (v : Byte) : Memory :=
  if v = Memory.unlisted then m.erase a else m.enter a v

/-- Addresses strictly rising from `lo` on, and no entry equal to what an unlisted address reads as. -/
def Memory.wfFrom : Nat → Memory → Bool
  | _, [] => true
  | lo, (k, b) :: m => decide (lo ≤ k) && decide (b ≠ Memory.unlisted) && Memory.wfFrom (k + 1) m

/-- The canonical form of a memory. -/
def Memory.wf (m : Memory) : Bool := Memory.wfFrom 0 m

/-- Every listed address is below a bound. -/
def Memory.below (m : Memory) (n : Nat) : Bool := m.all fun c => decide (c.1 < n)

/-- Store a block of bytes at rising addresses; the write_block of rule R61 and the loader's copy of rule R285. -/
def Memory.writeBlock : Memory → Nat → List Byte → Memory
  | m, _, [] => m
  | m, a, b :: bs => Memory.writeBlock (m.write a b) (a + 1) bs

/-- The bytes of a block; the read_block of rule R61. -/
def Memory.readBlock (m : Memory) (a : Nat) : Nat → List Byte
  | 0 => []
  | n + 1 => m.read a :: Memory.readBlock m (a + 1) n

namespace State

/-- `mem[a]` (rule R8). -/
def byte (s : State) (a : Nat) : Byte := s.mem.read a

/-- `mem[a] <- v`. -/
def setByte (s : State) (a : Nat) (v : Byte) : State := s.setMem (s.mem.write a v)

/-- `n` bytes from `a` as a 16-bit value: one byte zero-extended, or two bytes big-endian (rules R16, R44, R47). -/
def readN (s : State) (a n : Nat) : Word :=
  if n = 1 then (s.byte a).setWidth 16 else joinBytes (s.byte a) (s.byte (a + 1))

/-- Store the low `8n` bits of a value in `n` bytes from `a`: the low byte, or both bytes big-endian (rules R17, R48). -/
def writeN (s : State) (a n : Nat) (v : Word) : State :=
  if n = 1 then s.setByte a (loByte v) else (s.setByte a (hiByte v)).setByte (a + 1) (loByte v)

/-! ### MemRead and MemWrite (rules R8, R43, R44, R48, R52) -/

/-- The bounds check of rule R43, as integers, with no wrap-around. -/
def inBuffer (s : State) (a n : Nat) : Bool := decide (a + n ≤ s.cfg.memSize)

/-- The range `[a, a+n)` holds a byte of the program segment (rule R52). -/
def meetsProgram (s : State) (a n : Nat) : Bool :=
  decide (a < s.cfg.progBase + s.cfg.progSize ∧ s.cfg.progBase < a + n)

/-- `MemRead(a, n)` for `n` in 1, 2; `none` where it raises OutOfBounds(a). -/
def memRead (s : State) (a n : Nat) : Option Word :=
  if s.inBuffer a n then some (s.readN a n) else none

/-- `MemRead(a, 4)`, used by fetch. -/
def memRead4 (s : State) (a : Nat) : Option (BitVec 32) :=
  if s.inBuffer a 4 then some (joinFour (s.byte a) (s.byte (a + 1)) (s.byte (a + 2)) (s.byte (a + 3))) else none

/-- `MemWrite(a, n, v)` for `n` in 1, 2; `none` where it raises OutOfBounds(a): past the buffer, or into the program
segment. -/
def memWrite (s : State) (a n : Nat) (v : Word) : Option State :=
  if s.inBuffer a n = false then none
  else if s.meetsProgram a n then none
  else some (s.writeN a n v)

end State

/-! ### Registers (rules R12 to R18) -/

/-- The byte is a register index (rule R15). -/
def registerLegal (r : Byte) : Bool := decide (r.toNat < 32)

/-- `W(r)`, the width in bytes of a register (rules R8, R15). -/
def registerWidth (r : Byte) : Nat := if r.toNat ≤ 15 then 1 else 2

/-- `RA(r)`, the absolute address of a register (rules R8, R13). -/
def registerAddress (c : Config) (r : Byte) : Nat :=
  if r.toNat ≤ 15 then c.regBase + r.toNat else c.regBase + 16 + 2 * (r.toNat - 16)

namespace State

/-- `x[r]` (rule R16). -/
def readReg (s : State) (r : Byte) : Word := s.readN (registerAddress s.cfg r) (registerWidth r)

/-- `x[r] <- v` (rule R17). -/
def writeReg (s : State) (r : Byte) (v : Word) : State := s.writeN (registerAddress s.cfg r) (registerWidth r) v

/-! ### The stack controller (rules R26, R160) -/

/-- The stack has at least `n` free bytes: `sp - n >= STACK_BASE` in integers (rule R161). -/
def stackHasRoom (s : State) (n : Nat) : Bool := decide (s.cfg.stackBase + n ≤ s.sp.toNat)

/-- The stack holds at least `n` bytes: `sp + n <= STACK_TOP` in integers (rules R162, R164). -/
def stackHolds (s : State) (n : Nat) : Bool := decide (s.sp.toNat + n ≤ s.cfg.stackTop)

/-- The primitive `push(b)` of rule R160; `none` is StackOverflow. -/
def pushByte (s : State) (b : Byte) : Option State :=
  if s.sp.toNat = s.cfg.stackBase then none
  else some ((s.setByte (s.sp - 1).toNat b).setSp (s.sp - 1))

/-- The primitive `pop()` of rule R160; `none` is StackUnderflow. -/
def popByte (s : State) : Option (Byte × State) :=
  if s.sp.toNat = s.cfg.stackTop then none else some (s.byte s.sp.toNat, s.setSp (s.sp + 1))

/-- The primitive `swap(b)` of rule R160; `none` is StackUnderflow. -/
def swapByte (s : State) (b : Byte) : Option (Byte × State) :=
  if s.sp.toNat = s.cfg.stackTop then none else some (s.byte s.sp.toNat, s.setByte s.sp.toNat b)

/-- Push the low `n` bytes of a value, high byte on top (rules R160, R161). -/
def pushValue (s : State) (n : Nat) (v : Word) : State :=
  (s.writeN (s.sp.toNat - n) n v).setSp (s.sp - BitVec.ofNat 16 n)

/-- The top `n` bytes of the stack as a value, first byte the high one (rules R162, R164). -/
def topValue (s : State) (n : Nat) : Word := s.readN s.sp.toNat n

/-! ### Completing an instruction (rules R22, R23) -/

/-- The address of the mirror PCM (rule R23). -/
def mirrorAddress (s : State) : Nat := s.cfg.regBase + 48

/-- End an instruction whose other writes are done: `pc <- target`, then the mirror, last of all (rules R22, R23, R60). -/
def complete (s : State) (target : Word) : State :=
  (s.setPc target).writeN s.mirrorAddress 2 target

/-- End an instruction that does not set `pc`: `pc <- (pc + 4) mod 65536` (rule R22). -/
def advance (s : State) : State := s.complete (s.pc + 4)

/-! ### Taking a fault (rules R245, R250, R252, R254) -/

/-- `raise K(info)`: the record gets the kind, `pc`, the fetched bytes and `info`; `state <- Faulted`; nothing else
changes. The CORE's one exceptional event, terminal: there is no handler and no return. -/
def takeFault (s : State) (b : Record) (k : FaultKind) (info : Word) : State :=
  (s.setFault ⟨k, s.pc, b.opc, b.op0, b.op1, b.op2, info⟩).setState .faulted

/-- `PROG_BASE + pc` modulo 65536, the address of the opcode byte (rules R72, R240). -/
def opcodeAddress (s : State) : Word := BitVec.ofNat 16 (s.cfg.progBase + s.pc.toNat)

/-- The four bytes of an instruction under this machine's opcode table: the bytes fetched for it, since encoding is the
inverse of decoding (rule R82; log entry 8). -/
def bytesOf (s : State) (i : Instr) : Record := encode s.cfg.opc i

end State

end Sys2Proof.Machine
end

