-- ==== Sys2Proof/Machine/Operands.lean ====
section
/-! DEFINITION. The operand forms of rules R74 and R75, each written once: the register operand with its index check (formats RA,
RI, R), the 2-byte memory operand at an absolute address (format RA), and the shapes the families share. Immediates (RI),
jump targets (T) and the exit status (X) are fields of the instruction and need no access. Checks run in the order of
rule R251. -/

namespace Sys2Proof.Machine.State

open Sys2Proof

/-- Check the register operand before anything else; an illegal index faults OutOfBounds with the index as info
(rules R15, R79, R251 step 4). -/
def withRegister (s : State) (b : Record) (r : Byte) (k : State) : State :=
  if registerLegal r then k else s.takeFault b .outOfBounds (r.setWidth 16)

/-- Read `n` bytes at an absolute address, or fault OutOfBounds with the address as info (rules R43, R44, R251 step 5). -/
def withMemory (s : State) (b : Record) (a : Word) (n : Nat) (k : Word → State) : State :=
  match s.memRead a.toNat n with
  | some m => k m
  | none => s.takeFault b .outOfBounds a

/-- A register and a 2-byte memory operand, whatever the register's width (rules R46, R100): `k` gets the register's 16-bit
value and the memory operand. -/
def withOperands (s : State) (b : Record) (r : Byte) (a : Word) (k : Word → Word → State) : State :=
  s.withRegister b r (s.withMemory b a 2 fun m => k (s.readReg r) m)

/-- A binary operation of the accumulator with the memory operand (rules R100, R120). -/
def accumulate (s : State) (b : Record) (r : Byte) (a : Word) (f : Word → Word → Word) : State :=
  s.withOperands b r a fun v m => (s.writeReg r (f v m)).advance

/-- A binary operation that faults on a zero memory operand, DivideByZero with `addr16` as info (rules R104, R105, R246). -/
def accumulateNonzero (s : State) (b : Record) (r : Byte) (a : Word) (f : Word → Word → Word) : State :=
  s.withOperands b r a fun v m =>
    if m = 0 then s.takeFault b .divideByZero a else (s.writeReg r (f v m)).advance

/-- A unary operation on the accumulator: the register only, no memory access (rules R106, R107, R124). -/
def modifyRegister (s : State) (b : Record) (r : Byte) (f : Word → Word) : State :=
  s.withRegister b r (s.writeReg r (f (s.readReg r))).advance

/-- The shift count: the low byte of the memory operand AND (8 * W(r) - 1) (rule R120). -/
def shiftCount (r : Byte) (m : Word) : Nat :=
  (loByte m &&& BitVec.ofNat 8 (8 * registerWidth r - 1)).toNat

end Sys2Proof.Machine.State
end

