-- ==== Sys2Proof/Machine/Arithmetic.lean ====
section
/-! DEFINITION. The arithmetic instructions (40_arithmetic.md): unsigned 16-bit, wrapping, no flags. -/

namespace Sys2Proof.Machine

open Sys2Proof

/-- ADD (rule R101). -/
def execAdd (r : Byte) (a : Word) (s : State) : Result :=
  .next (s.accumulate (s.bytesOf (.add r a)) r a fun v m => v + m)

/-- SUB: register minus memory (rule R102). -/
def execSub (r : Byte) (a : Word) (s : State) : Result :=
  .next (s.accumulate (s.bytesOf (.sub r a)) r a fun v m => v - m)

/-- MUL: bits 15..0 of the product (rule R103). -/
def execMul (r : Byte) (a : Word) (s : State) : Result :=
  .next (s.accumulate (s.bytesOf (.mul r a)) r a fun v m => v * m)

/-- DIV: unsigned floor quotient; a zero operand faults DivideByZero (rule R104). -/
def execDiv (r : Byte) (a : Word) (s : State) : Result :=
  .next (s.accumulateNonzero (s.bytesOf (.div r a)) r a fun v m => v / m)

/-- MOD: unsigned remainder; a zero operand faults DivideByZero (rule R105). -/
def execMod (r : Byte) (a : Word) (s : State) : Result :=
  .next (s.accumulateNonzero (s.bytesOf (.mod r a)) r a fun v m => v % m)

/-- INC (rule R106). -/
def execInc (r : Byte) (x : Word) (s : State) : Result :=
  .next (s.modifyRegister (s.bytesOf (.inc r x)) r fun v => v + 1)

/-- DEC (rule R107). -/
def execDec (r : Byte) (x : Word) (s : State) : Result :=
  .next (s.modifyRegister (s.bytesOf (.dec r x)) r fun v => v - 1)

end Sys2Proof.Machine
end

