-- ==== Sys2Proof/Machine/Flags.lean ====
section
/-! DEFINITION. The flag: the six comparisons that write it, unsigned on 16 bits (rules R25, R140), and the two conditions that
the conditional jumps read (rules R182 to R184). No other instruction reads or writes it. -/

namespace Sys2Proof.Machine

open Sys2Proof

/-- EQ: `v = m` (rule R141). -/
def flagEq (v m : Word) : Bool := decide (v.toNat = m.toNat)
/-- NEQ: `v != m` (rule R142). -/
def flagNeq (v m : Word) : Bool := decide (v.toNat ≠ m.toNat)
/-- LT: `v < m`, unsigned (rule R143). -/
def flagLt (v m : Word) : Bool := decide (v.toNat < m.toNat)
/-- GT: `v > m`, unsigned (rule R144). -/
def flagGt (v m : Word) : Bool := decide (m.toNat < v.toNat)
/-- LTE: `v <= m`, unsigned (rule R145). -/
def flagLte (v m : Word) : Bool := decide (v.toNat ≤ m.toNat)
/-- GTE: `v >= m`, unsigned (rule R146). -/
def flagGte (v m : Word) : Bool := decide (m.toNat ≤ v.toNat)

/-- JMPT: taken when the flag is 1 (rule R182). -/
def State.flagTrue (s : State) : Bool := s.flag
/-- JMPF and JZ: taken when the flag is 0 (rules R183, R184). -/
def State.flagFalse (s : State) : Bool := !s.flag

/-- A comparison of the register (left) with the memory operand (right); only the flag is written (rule R140). -/
def State.compareOperands (s : State) (b : Record) (r : Byte) (a : Word) (rel : Word → Word → Bool) : State :=
  s.withOperands b r a fun v m => (s.setFlag (rel v m)).advance

/-- A conditional jump: to the target when taken, past the instruction otherwise; the flag is unchanged (rule R180). -/
def State.jumpIf (s : State) (taken : Bool) (target : Word) : State :=
  if taken then s.complete target else s.advance

end Sys2Proof.Machine
end

