-- ==== Sys2Proof/Machine/Comparison.lean ====
section
/-! DEFINITION. The comparison instructions (42_comparison.md): register against memory operand, unsigned, into the flag. -/

namespace Sys2Proof.Machine

open Sys2Proof

/-- EQ (rule R141). -/
def execEq (r : Byte) (a : Word) (s : State) : Result := .next (s.compareOperands (s.bytesOf (.eq r a)) r a flagEq)

/-- NEQ (rule R142). -/
def execNeq (r : Byte) (a : Word) (s : State) : Result := .next (s.compareOperands (s.bytesOf (.neq r a)) r a flagNeq)

/-- LT (rule R143). -/
def execLt (r : Byte) (a : Word) (s : State) : Result := .next (s.compareOperands (s.bytesOf (.lt r a)) r a flagLt)

/-- GT (rule R144). -/
def execGt (r : Byte) (a : Word) (s : State) : Result := .next (s.compareOperands (s.bytesOf (.gt r a)) r a flagGt)

/-- LTE (rule R145). -/
def execLte (r : Byte) (a : Word) (s : State) : Result := .next (s.compareOperands (s.bytesOf (.lte r a)) r a flagLte)

/-- GTE (rule R146). -/
def execGte (r : Byte) (a : Word) (s : State) : Result := .next (s.compareOperands (s.bytesOf (.gte r a)) r a flagGte)

end Sys2Proof.Machine
end

