-- ==== Sys2Proof/Machine/ControlFlow.lean ====
section
/-! DEFINITION. The control-flow instructions (44_control_flow.md). A target is an offset into the program segment, unchecked at
the jump; return addresses are kept in `ras` alone. -/

namespace Sys2Proof.Machine

open Sys2Proof

/-- JMP (rule R181). -/
def execJmp (target : Word) (s : State) : Result := .next (s.complete target)

/-- JMPT: taken when the flag is 1 (rule R182). -/
def execJmpt (target : Word) (s : State) : Result := .next (s.jumpIf s.flagTrue target)

/-- JMPF: taken when the flag is 0 (rule R183). -/
def execJmpf (target : Word) (s : State) : Result := .next (s.jumpIf s.flagFalse target)

/-- JZ: taken when the flag is 0; it tests no register (rule R184). -/
def execJz (target : Word) (s : State) : Result := .next (s.jumpIf s.flagFalse target)

/-- What a full return-address stack puts into `fault.info`: `ras_count`, where 16 bits hold it (rules R30, R185); else the
free value of log entry 6. -/
def rasCountInfo (n : Nat) : Word := if n < 65536 then BitVec.ofNat 16 n else Config.wideRasCountInfo n

/-- CALL: the offset of the next instruction goes onto `ras`; a full `ras` faults StackOverflow (rule R185). -/
def execCall (x : Byte) (target : Word) (s : State) : Result :=
  .next
    (if s.rasCount = s.cfg.rasDepth then
      s.takeFault (s.bytesOf (.call x target)) .stackOverflow (rasCountInfo s.rasCount)
     else ((s.setRas (s.ras.set s.rasCount (s.pc + 4))).setRasCount (s.rasCount + 1)).complete target)

/-- RET: the newest entry of `ras` becomes `pc`; an empty `ras` faults StackUnderflow with info 0 (rule R186). The entry
keeps its value (rule R27). -/
def execRet (x0 x1 x2 : Byte) (s : State) : Result :=
  .next
    (if s.rasCount = 0 then s.takeFault (s.bytesOf (.ret x0 x1 x2)) .stackUnderflow 0
     else (s.setRasCount (s.rasCount - 1)).complete (s.ras.getD (s.rasCount - 1) 0))

end Sys2Proof.Machine
end

