-- ==== Sys2Proof/Machine/IoSystem.lean ====
section
/-! DEFINITION. The I/O, system and miscellaneous instructions (46_io_system_misc.md). -/

namespace Sys2Proof.Machine

open Sys2Proof

/-- IN: the next byte of the input stream, zero-extended; the end of the stream faults IOError with info 0 (rule R221). -/
def execIn (r : Byte) (x : Word) (s : State) : Result :=
  .next (s.withRegister (s.bytesOf (.inp r x)) r
    (match s.inStream[s.inPos]? with
     | some b => ((s.setInPos (s.inPos + 1)).writeReg r (b.setWidth 16)).advance
     | none => s.takeFault (s.bytesOf (.inp r x)) .ioError 0))

/-- OUT: bits 7..0 of the register are appended to `out` (rule R222). -/
def execOut (r : Byte) (x : Word) (s : State) : Result :=
  .next (s.withRegister (s.bytesOf (.out r x)) r (s.setOut (s.out ++ [loByte (s.readReg r)])).advance)

/-- LAB: a no-op when fetched (rule R223). -/
def execLab (s : State) : Result := .next s.advance

/-- NOP (rule R224). -/
def execNop (s : State) : Result := .next s.advance

/-- SYS: always the fault UnimplementedOpcode (rule R225). -/
def execSys (x0 x1 x2 : Byte) (s : State) : Result :=
  .next (s.takeFault (s.bytesOf (.sys x0 x1 x2)) .unimplementedOpcode s.opcodeAddress)

/-- HALT: the exit status is recorded, the engine stops, `pc` still advances (rules R22, R226). -/
def execHalt (status : Byte) (s : State) : Result :=
  .next ((s.setExitCode status).setState .halted).advance

end Sys2Proof.Machine
end

