-- ==== Sys2Proof/Machine/Logical.lean ====
section
/-! DEFINITION. The logical instructions (41_logical.md): bitwise on 16 bits, masked shift counts, no flags. -/

namespace Sys2Proof.Machine

open Sys2Proof

/-- AND (rule R121). -/
def execAnd (r : Byte) (a : Word) (s : State) : Result :=
  .next (s.accumulate (s.bytesOf (.and r a)) r a fun v m => v &&& m)

/-- OR (rule R122). -/
def execOr (r : Byte) (a : Word) (s : State) : Result :=
  .next (s.accumulate (s.bytesOf (.or r a)) r a fun v m => v ||| m)

/-- XOR (rule R123). -/
def execXor (r : Byte) (a : Word) (s : State) : Result :=
  .next (s.accumulate (s.bytesOf (.xor r a)) r a fun v m => v ^^^ m)

/-- NOT: `x[r] XOR 0xFFFF` (rule R124). -/
def execNot (r : Byte) (x : Word) (s : State) : Result :=
  .next (s.modifyRegister (s.bytesOf (.not r x)) r fun v => v ^^^ 0xFFFF)

/-- SHL: zeros enter at bit 0 (rule R125). -/
def execShl (r : Byte) (a : Word) (s : State) : Result :=
  .next (s.accumulate (s.bytesOf (.shl r a)) r a fun v m => v <<< State.shiftCount r m)

/-- SHR: logical, zeros enter at the top (rule R126). -/
def execShr (r : Byte) (a : Word) (s : State) : Result :=
  .next (s.accumulate (s.bytesOf (.shr r a)) r a fun v m => v >>> State.shiftCount r m)

end Sys2Proof.Machine
end

