-- ==== Sys2Proof/Machine/MemoryRegister.lean ====
section
/-! DEFINITION. The memory and register instructions (45_memory_register.md): W(r) bytes at an absolute address, and the one
immediate. -/

namespace Sys2Proof.Machine

open Sys2Proof

/-- LOAD (rule R201). -/
def execLoad (r : Byte) (a : Word) (s : State) : Result :=
  .next (s.withRegister (s.bytesOf (.load r a)) r
    (s.withMemory (s.bytesOf (.load r a)) a (registerWidth r) fun v => (s.writeReg r v).advance))

/-- STORE, register to memory (rule R202). -/
def execStore (r : Byte) (a : Word) (s : State) : Result :=
  .next (s.withRegister (s.bytesOf (.store r a)) r
    (match s.memWrite a.toNat (registerWidth r) (s.readReg r) with
     | some t => t.advance
     | none => s.takeFault (s.bytesOf (.store r a)) .outOfBounds a))

/-- MOV, register and immediate (rule R203). -/
def execMov (r : Byte) (imm : Word) (s : State) : Result :=
  .next (s.withRegister (s.bytesOf (.mov r imm)) r (s.writeReg r imm).advance)

end Sys2Proof.Machine
end

