-- ==== Sys2Proof/Machine/Stack.lean ====
section
/-! DEFINITION. The stack instructions (43_stack.md). PUSH, POP and SWAP move the register's width in bytes, with the combined
bounds checked before any byte moves; DUP moves one byte. -/

namespace Sys2Proof.Machine

open Sys2Proof

/-- PUSH (rule R161). -/
def execPush (r : Byte) (x : Word) (s : State) : Result :=
  .next (s.withRegister (s.bytesOf (.push r x)) r
    (if s.stackHasRoom (registerWidth r) then (s.pushValue (registerWidth r) (s.readReg r)).advance
     else s.takeFault (s.bytesOf (.push r x)) .stackOverflow s.sp))

/-- POP (rule R162). The popped bytes stay in memory. -/
def execPop (r : Byte) (x : Word) (s : State) : Result :=
  .next (s.withRegister (s.bytesOf (.pop r x)) r
    (if s.stackHolds (registerWidth r) then
      ((s.writeReg r (s.topValue (registerWidth r))).setSp (s.sp + BitVec.ofNat 16 (registerWidth r))).advance
     else s.takeFault (s.bytesOf (.pop r x)) .stackUnderflow s.sp))

/-- DUP: underflow is tested before overflow (rules R163, R251 step 7). -/
def execDup (x0 x1 x2 : Byte) (s : State) : Result :=
  .next
    (if s.sp.toNat = s.cfg.stackTop then s.takeFault (s.bytesOf (.dup x0 x1 x2)) .stackUnderflow s.sp
     else if s.sp.toNat = s.cfg.stackBase then s.takeFault (s.bytesOf (.dup x0 x1 x2)) .stackOverflow s.sp
     else (s.pushValue 1 (s.topValue 1)).advance)

/-- SWAP: the stack bytes are written, then the register; `sp` does not move (rule R164). -/
def execSwap (r : Byte) (x : Word) (s : State) : Result :=
  .next (s.withRegister (s.bytesOf (.swap r x)) r
    (if s.stackHolds (registerWidth r) then
      ((s.writeN s.sp.toNat (registerWidth r) (s.readReg r)).writeReg r (s.topValue (registerWidth r))).advance
     else s.takeFault (s.bytesOf (.swap r x)) .stackUnderflow s.sp))

end Sys2Proof.Machine
end

