-- ==== Sys2Proof/Machine/Dispatch.lean ====
section
/-! DEFINITION. The opcode dispatcher (rule R80): one arm per constructor of Instr, each one call of that instruction's meaning.
It does not look at the engine state; only step does (rules R28, R290). -/

namespace Sys2Proof.Machine

open Sys2Proof

def exec (i : Instr) (s : State) : Host.Outcome State Fault Refusal :=
  match i with
  | .nop _ _ _ => Sys2Proof.Machine.execNop s
  | .add r a => Sys2Proof.Machine.execAdd r a s
  | .sub r a => Sys2Proof.Machine.execSub r a s
  | .mul r a => Sys2Proof.Machine.execMul r a s
  | .div r a => Sys2Proof.Machine.execDiv r a s
  | .mod r a => Sys2Proof.Machine.execMod r a s
  | .inc r x => Sys2Proof.Machine.execInc r x s
  | .dec r x => Sys2Proof.Machine.execDec r x s
  | .and r a => Sys2Proof.Machine.execAnd r a s
  | .or r a => Sys2Proof.Machine.execOr r a s
  | .xor r a => Sys2Proof.Machine.execXor r a s
  | .not r x => Sys2Proof.Machine.execNot r x s
  | .shl r a => Sys2Proof.Machine.execShl r a s
  | .shr r a => Sys2Proof.Machine.execShr r a s
  | .eq r a => Sys2Proof.Machine.execEq r a s
  | .neq r a => Sys2Proof.Machine.execNeq r a s
  | .lt r a => Sys2Proof.Machine.execLt r a s
  | .gt r a => Sys2Proof.Machine.execGt r a s
  | .lte r a => Sys2Proof.Machine.execLte r a s
  | .gte r a => Sys2Proof.Machine.execGte r a s
  | .push r x => Sys2Proof.Machine.execPush r x s
  | .pop r x => Sys2Proof.Machine.execPop r x s
  | .dup x0 x1 x2 => Sys2Proof.Machine.execDup x0 x1 x2 s
  | .swap r x => Sys2Proof.Machine.execSwap r x s
  | .jmp _ target => Sys2Proof.Machine.execJmp target s
  | .jmpt _ target => Sys2Proof.Machine.execJmpt target s
  | .jmpf _ target => Sys2Proof.Machine.execJmpf target s
  | .jz _ target => Sys2Proof.Machine.execJz target s
  | .call x target => Sys2Proof.Machine.execCall x target s
  | .ret x0 x1 x2 => Sys2Proof.Machine.execRet x0 x1 x2 s
  | .load r a => Sys2Proof.Machine.execLoad r a s
  | .store r a => Sys2Proof.Machine.execStore r a s
  | .mov r imm => Sys2Proof.Machine.execMov r imm s
  | .inp r x => Sys2Proof.Machine.execIn r x s
  | .out r x => Sys2Proof.Machine.execOut r x s
  | .lab _ _ _ => Sys2Proof.Machine.execLab s
  | .sys x0 x1 x2 => Sys2Proof.Machine.execSys x0 x1 x2 s
  | .halt _ status => Sys2Proof.Machine.execHalt status s

end Sys2Proof.Machine
end

