-- ==== Sys2Proof/Machine/Fetch.lean ====
section
/-! DEFINITION. Fetching an instruction's four bytes, and the two faults that the cycle raises before any meaning runs: a fetch
outside the program segment (rule R72) and an opcode byte that is in no row of the table (rule R78). -/

namespace Sys2Proof.Machine.State

open Sys2Proof

/-- The absolute address of the next instruction, PROG_BASE + pc (rules R21, R72). -/
def fetchAddress (s : State) : Nat := s.cfg.progBase + s.pc.toNat

/-- The fetch lies inside the program segment: `pc + 4 <= PROG_SIZE` in integers (rule R72). -/
def canFetch (s : State) : Bool := decide (s.pc.toNat + 4 ≤ s.cfg.progSize)

/-- The fetched record; `none` where the fetch raises OutOfBounds (rules R49, R72). -/
def fetch (s : State) : Option Record :=
  if s.canFetch then (s.memRead4 s.fetchAddress).map Record.ofWord32 else none

/-- OutOfBounds((PROG_BASE + pc) mod 65536) with the four bytes recorded as 0 (rules R72, R243(a)). -/
def fetchFault (s : State) : State := s.takeFault .zero .outOfBounds s.opcodeAddress

/-- InvalidOpcode(PROG_BASE + pc) with the four fetched bytes (rules R78, R241). -/
def illegalOpcode (s : State) (b : Record) : State := s.takeFault b .invalidOpcode s.opcodeAddress

/-- Store a record where the next fetch reads and set the engine Running (see withFetchWord in Machine/Step.lean). -/
def placeRecord (s : State) (b : Record) : State :=
  let t := if s.canFetch then s else s.setPc 0
  (t.setMem (t.mem.writeBlock t.fetchAddress b.bytes)).setState .running

end Sys2Proof.Machine.State
end

