-- ==== Sys2Proof/Machine/Step.lean ====
section
/-! DEFINITION. The instruction cycle (rule R290): fetch, decode, execute. Only a Running CORE has a step (rule R291). -/

namespace Sys2Proof.Machine

open Sys2Proof

/-- One step of the machine. -/
def step (s : State) : Host.Outcome State Fault Refusal :=
  match s.state with
  | .loaded => .fault .notStarted
  | .halted => .fault .alreadyHalted
  | .faulted => .fault .alreadyFaulted
  | .running =>
    match s.fetch with
    | none => .next s.fetchFault
    | some b =>
      match decodeRecord s.cfg.opc b with
      | .ok i => exec i s
      | .error _ => .next (s.illegalOpcode b)

/-- At most `n` steps, keeping the last state the CORE reached: the run of rules R290 and R291 under fuel (rule R294). -/
def runFor : Nat → State → State
  | 0, s => s
  | n + 1, s =>
    match step s with
    | .next t => runFor n t
    | .fault _ => s
    | .refused _ => s

/-- The state in which the very next step fetches and runs the given instruction: the record is stored at PROG_BASE + pc, as
the loader would store it (rule R285), and the engine is Running, as after the host's `run` (rule R288). Where `pc` cannot
be fetched from, it is taken back to the entry point 0 (rule R282). Log entry 5. -/
def State.withFetchWord (s : State) (nbits w : Nat) : State :=
  s.placeRecord (tableRecord nbits w)

end Sys2Proof.Machine
end

