-- ==== Sys2Proof/Machine/AsmText.lean ====
section
/-! DEFINITION. The assembly text form that the spec specifies "for interface compatibility" (rules R3, R90 to R92): canonical
printing and parsing of one line and of a program. The translator around it (command line, files) is out of scope (rule
R4(a)). What rule R90 calls not stated is refused by name (log entry 11); what it leaves open of blanks and leading zeros is accepted
(log entry 18). -/

namespace Sys2Proof.Asm

open Sys2Proof

/-- The mnemonic as text, in upper case (rules R76, R90). -/
def mnemonicText : Mnemonic → List Char
  | .nop => ['N', 'O', 'P']
  | .add => ['A', 'D', 'D']
  | .sub => ['S', 'U', 'B']
  | .mul => ['M', 'U', 'L']
  | .div => ['D', 'I', 'V']
  | .mod => ['M', 'O', 'D']
  | .inc => ['I', 'N', 'C']
  | .dec => ['D', 'E', 'C']
  | .and => ['A', 'N', 'D']
  | .or => ['O', 'R']
  | .xor => ['X', 'O', 'R']
  | .not => ['N', 'O', 'T']
  | .shl => ['S', 'H', 'L']
  | .shr => ['S', 'H', 'R']
  | .eq => ['E', 'Q']
  | .neq => ['N', 'E', 'Q']
  | .lt => ['L', 'T']
  | .gt => ['G', 'T']
  | .lte => ['L', 'T', 'E']
  | .gte => ['G', 'T', 'E']
  | .push => ['P', 'U', 'S', 'H']
  | .pop => ['P', 'O', 'P']
  | .dup => ['D', 'U', 'P']
  | .swap => ['S', 'W', 'A', 'P']
  | .jmp => ['J', 'M', 'P']
  | .jmpt => ['J', 'M', 'P', 'T']
  | .jmpf => ['J', 'M', 'P', 'F']
  | .jz => ['J', 'Z']
  | .call => ['C', 'A', 'L', 'L']
  | .ret => ['R', 'E', 'T']
  | .load => ['L', 'O', 'A', 'D']
  | .store => ['S', 'T', 'O', 'R', 'E']
  | .mov => ['M', 'O', 'V']
  | .inp => ['I', 'N']
  | .out => ['O', 'U', 'T']
  | .lab => ['L', 'A', 'B']
  | .sys => ['S', 'Y', 'S']
  | .halt => ['H', 'A', 'L', 'T']

/-- One decimal digit. -/
def digit (n : Nat) : Char := Char.ofNat (48 + n)

/-- A byte in decimal, no leading zeros (rule R91). -/
def decimal (b : Byte) : List Char :=
  let n := b.toNat
  if n < 10 then [digit n]
  else if n < 100 then [digit (n / 10), digit (n % 10)]
  else [digit (n / 100), digit (n / 10 % 10), digit (n % 10)]

/-- Canonical printing: the mnemonic and all three operand bytes, single spaces (rule R91). -/
def format (i : Instr) : List Char :=
  mnemonicText i.mnemonic ++ ' ' :: decimal i.operands.1 ++ ' ' :: decimal i.operands.2.1
    ++ ' ' :: decimal i.operands.2.2

/-- Why a line is no instruction. -/
inductive ParseError where
  /-- An unrecognised mnemonic: "a hard parse failure" (rule R90). -/
  | unknownMnemonic
  /-- An operand token that is not a decimal number. -/
  | notDecimal
  /-- An operand above 255: not stated by rule R90, refused. -/
  | operandTooLarge
  /-- More than three operands: not stated by rule R90, refused. -/
  | tooManyOperands
  /-- A line without a token: not stated by rule R90, refused. -/
  | blankLine
  deriving DecidableEq, Repr

/-- A blank between tokens. -/
def isBlank (c : Char) : Bool := c == ' ' || c == '\t'

/-- Split at the characters that satisfy a test, keeping empty pieces. -/
def splitAt (p : Char → Bool) : List Char → List (List Char)
  | [] => [[]]
  | c :: cs =>
    if p c then [] :: splitAt p cs
    else
      match splitAt p cs with
      | [] => [[c]]
      | t :: ts => (c :: t) :: ts

/-- The whitespace-separated tokens of a line (rule R90). DESIGN CHOICE (log entry 18), unsafe: blanks before the mnemonic and
after the last operand, and several blanks in a row, separate nothing and are accepted. -/
def tokens (line : List Char) : List (List Char) := (splitAt isBlank line).filter fun t => !t.isEmpty

/-- The value of a decimal digit. -/
def digitValue (c : Char) : Option Nat := if 48 ≤ c.toNat ∧ c.toNat ≤ 57 then some (c.toNat - 48) else none

/-- The value of a decimal number, continuing from what stands before it. DESIGN CHOICE (log entry 18), unsafe: leading zeros are
accepted and add nothing. -/
def numberFrom : Nat → List Char → Option Nat
  | n, [] => some n
  | n, c :: cs =>
    match digitValue c with
    | some d => numberFrom (10 * n + d) cs
    | none => none

/-- An unsigned byte operand (rule R90). -/
def operand (t : List Char) : Except ParseError Byte :=
  match numberFrom 0 t with
  | none => .error .notDecimal
  | some n => if n ≤ 255 then .ok (BitVec.ofNat 8 n) else .error .operandTooLarge

/-- The mnemonic of a token (rule R90). -/
def parseMnemonic (t : List Char) : Option Mnemonic := Mnemonic.all.find? fun m => mnemonicText m == t

/-- Zero to three operand bytes, "missing operands implicitly zero" (rule R90). -/
def operandBytes : List (List Char) → Except ParseError (Byte × Byte × Byte)
  | [] => .ok (0, 0, 0)
  | [t0] =>
    match operand t0 with
    | .ok b0 => .ok (b0, 0, 0)
    | .error e => .error e
  | [t0, t1] =>
    match operand t0, operand t1 with
    | .ok b0, .ok b1 => .ok (b0, b1, 0)
    | .error e, _ => .error e
    | .ok _, .error e => .error e
  | [t0, t1, t2] =>
    match operand t0, operand t1, operand t2 with
    | .ok b0, .ok b1, .ok b2 => .ok (b0, b1, b2)
    | .error e, _, _ => .error e
    | .ok _, .error e, _ => .error e
    | .ok _, .ok _, .error e => .error e
  | _ => .error .tooManyOperands

/-- One line of assembly text: `MNEMONIC [b0 [b1 [b2]]]` (rule R90). -/
def parse (line : List Char) : Except ParseError Instr :=
  match tokens line with
  | [] => .error .blankLine
  | t :: ts =>
    match parseMnemonic t with
    | none => .error .unknownMnemonic
    | some m =>
      match operandBytes ts with
      | .ok (b0, b1, b2) => .ok (Instr.ofOperands m b0 b1 b2)
      | .error e => .error e

/-- A program: one instruction per line (rule R90). -/
def parseLines : List (List Char) → Except ParseError (List Instr)
  | [] => .ok []
  | l :: ls =>
    match parse l, parseLines ls with
    | .ok i, .ok is => .ok (i :: is)
    | .error e, _ => .error e
    | .ok _, .error e => .error e

/-- A program's text, newline-separated (rule R90). DESIGN CHOICE (log entry 11), safe: line feed separates lines, so that a line
feed after the last instruction leaves a blank line after it, and an empty text is one blank line; both are refused, as any
blank line is, `blankLine`. -/
def parseProgram (text : List Char) : Except ParseError (List Instr) := parseLines (splitAt (· == '\n') text)

end Sys2Proof.Asm
end

