-- ==== Sys2Proof/Machine/HostPort.lean ====
section
/-! DEFINITION. What the host can do to the CORE, and nothing else (rule R284): reset, load, run, supply input; read the status
and the output at any time, read memory and registers when the CORE has stopped (rule R259). A session keeps, outside the
CORE's state, what the host must remember between resets: whether the one load was done and whether start-up was aborted
(rules R285, R286; log entry 9). -/

namespace Sys2Proof.Machine

open Sys2Proof

/-- What the host is told when an operation is refused; no operation that fails changes anything. -/
inductive HostError where
  /-- The operation is not allowed in this engine state, or not a second time (rule R284, R285). -/
  | notAllowed
  /-- A block write whose data length differs from the block size (rules R61, R244, R258). -/
  | sizeMismatch
  /-- A block outside the buffer, or an image longer than the program segment (rules R43, R259, R286). -/
  | outOfBounds
  /-- The host's file I/O failed while the image was read: file not found, short read (rules R249, R258, R286). Outside the
  CORE: it is reported to the caller and never recorded in `fault`. -/
  | ioError
  deriving DecidableEq, Repr

namespace State

/-- The source's write_block(start, bytes) (rule R61). It is not MemWrite: rule R52's protection does not apply (R285). -/
def writeBlock (s : State) (start size : Nat) (data : List Byte) : Except HostError State :=
  if data.length ≠ size then .error .sizeMismatch
  else if s.inBuffer start size = false then .error .outOfBounds
  else .ok (s.setMem (s.mem.writeBlock start data))

/-- The source's read_block(start, size) (rules R61, R259). -/
def readBlock (s : State) (start size : Nat) : Except HostError (List Byte) :=
  if s.inBuffer start size then .ok (s.mem.readBlock start size) else .error .outOfBounds

/-- The loader's block write of `size` bytes: in Loaded, the data to PROG_BASE. Data of another length, or a block longer than
PROG_SIZE, fails as a whole (rules R258, R285, R286). -/
def loadBlock (s : State) (size : Nat) (data : List Byte) : Except HostError State :=
  if s.state ≠ .loaded then .error .notAllowed
  else if data.length ≠ size then .error .sizeMismatch
  else if s.cfg.progSize < size then .error .outOfBounds
  else s.writeBlock s.cfg.progBase size data

/-- `load(image)`: the whole image, its length the only end mark (rules R285 to R287). -/
def load (s : State) (image : List Byte) : Except HostError State := s.loadBlock image.length image

/-- The attempt to load an image that the host cannot read: an IOError, wherever a load is allowed (rules R258, R286). -/
def loadUnreadable (s : State) : Except HostError State :=
  if s.state ≠ .loaded then .error .notAllowed else .error .ioError

/-- `run`: in Loaded, `state <- Running` and nothing else (rule R288). -/
def run (s : State) : Except HostError State :=
  if s.state = .loaded then .ok (s.setState .running) else .error .notAllowed

/-- Supply input bytes, before the run or while Running: they follow those already supplied (rules R31, R284). -/
def supply (s : State) (bytes : List Byte) : Except HostError State :=
  if s.state = .loaded ∨ s.state = .running then .ok (s.setInStream (s.inStream ++ bytes)) else .error .notAllowed

/-- The status the host can read at any time (rule R284). -/
def readStatus (s : State) : EngineState × Byte × FaultRecord := (s.state, s.exitCode, s.fault)

/-- The output the host can read at any time, in order (rules R222, R284). -/
def readOut (s : State) : List Byte := s.out

/-- The CORE has stopped: the end of a run (rule R291). -/
def stopped (s : State) : Bool := decide (s.state = .halted ∨ s.state = .faulted)

/-- The diagnostic read of memory: only when stopped, bounds-checked, changing nothing (rule R259). -/
def diagnosticRead (s : State) (start size : Nat) : Except HostError (List Byte) :=
  if s.stopped then s.readBlock start size else .error .notAllowed

end State

/-- The dedicated registers the diagnostic port shows (rule R259). -/
structure DiagnosticView where
  pc : Word
  flag : Bool
  sp : Word
  rasCount : Nat
  ras : List Word
  state : EngineState
  exitCode : Byte
  fault : FaultRecord
  out : List Byte
  deriving DecidableEq, Repr

/-- The diagnostic read of the dedicated registers, only when stopped (rule R259). -/
def State.diagnosticRegisters (s : State) : Except HostError DiagnosticView :=
  if s.stopped then .ok ⟨s.pc, s.flag, s.sp, s.rasCount, s.ras, s.state, s.exitCode, s.fault, s.out⟩
  else .error .notAllowed

/-- The outcome of a run (rule R291). -/
inductive RunOutcome where
  | exit (code : Byte)
  | faulted (record : FaultRecord)
  deriving DecidableEq, Repr

/-- The outcome, once the run has ended (rule R291). -/
def State.outcome (s : State) : Option RunOutcome :=
  match s.state with
  | .halted => some (.exit s.exitCode)
  | .faulted => some (.faulted s.fault)
  | .loaded | .running => none

/-- A session of the host with one CORE. -/
structure Session where
  core : State
  /-- A load was made since the last reset (rule R285: at most once per reset). -/
  loadDone : Bool
  /-- The loader failed since the last reset, so `run` must not be given (rules R258, R286). -/
  startupAborted : Bool
  deriving DecidableEq, Repr

/-- The operations that change something (rule R284). -/
inductive HostOp where
  /-- Reset, in any state; the environment supplies a new input stream to the fresh machine (rules R31, R280). -/
  | reset (input : List Byte)
  /-- Load an image (rule R285). -/
  | load (image : List Byte)
  /-- Load a block of a size that its data may not have (rule R258). -/
  | loadBlock (size : Nat) (data : List Byte)
  /-- Load an image that the host's file I/O fails to read (rules R258, R286). -/
  | loadUnreadable
  /-- Start the run (rule R288). -/
  | run
  /-- Supply input bytes (rule R284). -/
  | supply (bytes : List Byte)
  deriving DecidableEq, Repr

namespace Session

/-- A session after reset (rule R280). -/
def fresh (c : Config) (input : List Byte) : Session := ⟨State.resetWith c input, false, false⟩

/-- The end of a load, given what the loader made of it: at most one load per reset (rule R285). A load that fails is reported
to the caller, leaves the CORE as it was, in Loaded after reset, and aborts start-up (rules R258, R286; log entry 9). -/
def finishLoad (h : Session) (made : Except HostError State) : Session × Option HostError :=
  if h.loadDone || h.startupAborted then (h, some .notAllowed)
  else
    match made with
    | .ok s => (⟨s, true, false⟩, none)
    | .error .notAllowed => (h, some .notAllowed)
    | .error e => (⟨h.core, false, true⟩, some e)

/-- One operation of the host: the session after it and the error reported to the host, if any. A refused or failed operation
leaves the CORE unchanged; after a failed load `run` is refused until the next reset (rules R258, R286). -/
def apply (h : Session) : HostOp → Session × Option HostError
  | .reset input => (fresh h.core.cfg input, none)
  | .load image => h.finishLoad (h.core.load image)
  | .loadBlock size data => h.finishLoad (h.core.loadBlock size data)
  | .loadUnreadable => h.finishLoad h.core.loadUnreadable
  | .run =>
    if h.startupAborted then (h, some .notAllowed)
    else
      match h.core.run with
      | .ok s => (⟨s, h.loadDone, false⟩, none)
      | .error e => (h, some e)
  | .supply bytes =>
    match h.core.supply bytes with
    | .ok s => (⟨s, h.loadDone, h.startupAborted⟩, none)
    | .error e => (h, some e)

/-- One step of the CORE inside a session, where it has one (rule R290). -/
def coreStep (h : Session) : Session :=
  match step h.core with
  | .next s => ⟨s, h.loadDone, h.startupAborted⟩
  | .fault _ => h
  | .refused _ => h

end Session

end Sys2Proof.Machine
end

