-- ==== Sys2Proof/Safety.lean ====
section
/-! DEFINITION. What the statements are said in: the invariant of the machine, part by part; the states a run reaches; and what
it means that an instruction left everything else alone (its frame). -/

namespace Sys2Proof.Machine

open Sys2Proof

/-! ### Classes of instructions -/

/-- Apply an update to a next state, and leave a stop alone. -/
def onNext (f : State → State) : Result → Result
  | .next t => .next (f t)
  | .fault e => .fault e
  | .refused e => .refused e

/-- A comparison instruction (rule R140). -/
def isComparison : Instr → Bool
  | .eq _ _ | .neq _ _ | .lt _ _ | .gt _ _ | .lte _ _ | .gte _ _ => true
  | _ => false

/-- A conditional jump, one of the three instructions that read the flag (rule R180). -/
def isConditionalJump : Instr → Bool
  | .jmpt _ _ | .jmpf _ _ | .jz _ _ => true
  | _ => false

/-- An instruction that sets `pc` itself (rule R22). -/
def isTransfer : Instr → Bool
  | .jmp _ _ | .jmpt _ _ | .jmpf _ _ | .jz _ _ | .call _ _ | .ret _ _ _ => true
  | _ => false

/-- An instruction that moves the data-stack cursor (rule R165). -/
def movesCursor : Instr → Bool
  | .push _ _ | .pop _ _ | .dup _ _ _ => true
  | _ => false

/-- CALL or RET, the instructions of the return-address stack (rule R27). -/
def usesReturnStack : Instr → Bool
  | .call _ _ | .ret _ _ _ => true
  | _ => false

namespace State

/-- The memory is in its canonical form and lists no address outside the buffer (rule R11). -/
abbrev MemoryInv (s : State) : Prop := s.mem.wf = true ∧ s.mem.below s.cfg.memSize = true

/-- The data-stack cursor stays in the stack segment, ends included (rules R26, R165). -/
abbrev CursorInv (s : State) : Prop := s.cfg.stackBase ≤ s.sp.toNat ∧ s.sp.toNat ≤ s.cfg.stackTop

/-- The return-address stack has RAS_DEPTH entries, of which at most all are valid (rule R27). -/
abbrev ReturnStackInv (s : State) : Prop := s.ras.length = s.cfg.rasDepth ∧ s.rasCount ≤ s.cfg.rasDepth

/-- No more input is consumed than was supplied (rule R31). -/
abbrev InputInv (s : State) : Prop := s.inPos ≤ s.inStream.length

/-- The mirror PCM holds the program counter (rule R23). -/
abbrev MirrorInv (s : State) : Prop := s.readN s.mirrorAddress 2 = s.pc

/-- The fault record is all zero unless Faulted, and then names a kind that the CORE raises; the exit status is 0 unless
Halted (rules R29, R30, R244, R257). -/
abbrev OutcomeInv (s : State) : Prop :=
  (s.state ≠ .faulted → s.fault = .zero) ∧
  (s.state = .faulted → s.fault.kind ≠ .none ∧ s.fault.kind ≠ .sizeMismatch) ∧
  (s.state ≠ .halted → s.exitCode = 0)

/-- The invariant of the machine. -/
abbrev Inv (s : State) : Prop :=
  s.cfg.Legal ∧ s.MemoryInv ∧ s.CursorInv ∧ s.ReturnStackInv ∧ s.InputInv ∧ s.MirrorInv ∧ s.OutcomeInv

/-- The states of the runs of a legal machine: the state in which `run` is given, after a load of any image or of none, and
every state a step leads to (rules R285, R288, R290). -/
inductive Reachable : State → Prop where
  | start (c : Config) (input image : List Byte) (s t : State) :
      c.Legal → (resetWith c input).load image = .ok s → s.run = .ok t → Reachable t
  | step (s t : State) : Reachable s → Machine.step s = .next t → Reachable t

/-! ### Frames -/

/-- Everything but memory and `pc` is as before. -/
abbrev SameControl (s t : State) : Prop := t = { s with mem := t.mem, pc := t.pc }

/-- Every byte of memory is as before, but for the `n` bytes from `a` and the two bytes of the mirror PCM. -/
abbrev SameMemoryBut (s t : State) (a n : Nat) : Prop :=
  ∀ k, (k < a ∨ a + n ≤ k) → k ≠ s.mirrorAddress → k ≠ s.mirrorAddress + 1 → t.byte k = s.byte k

/-- Every byte of memory is as before, but for the two bytes of the mirror PCM. -/
abbrev SameMemory (s t : State) : Prop :=
  ∀ k, k ≠ s.mirrorAddress → k ≠ s.mirrorAddress + 1 → t.byte k = s.byte k

/-- Every register but `r` reads as before. -/
abbrev SameRegistersBut (s t : State) (r : Byte) : Prop :=
  ∀ q : Byte, q.toNat < 32 → q ≠ r → t.readReg q = s.readReg q

/-- Every register reads as before. -/
abbrev SameRegisters (s t : State) : Prop := ∀ q : Byte, q.toNat < 32 → t.readReg q = s.readReg q

/-- The instruction ended with this program counter, and the mirror PCM holds it (rules R22, R23). -/
abbrev EndsAt (t : State) (target : Word) : Prop := t.pc = target ∧ t.MirrorInv

/-- The state after the fault `(kind, pc, b, info)`: Faulted, the record filled, nothing else changed (rule R245). -/
def afterFault (s : State) (kind : FaultKind) (b : Record) (info : Word) : State :=
  { s with
    state := .faulted
    fault := { kind := kind, pc := s.pc, opc := b.opc, op0 := b.op0, op1 := b.op1, op2 := b.op2, info := info } }

end State

/-- The sessions that a host comes to: after reset, after any operation of the host, and after any step of the CORE
(rules R280, R284, R290). -/
inductive Session.Reachable : Session → Prop where
  | fresh (c : Config) (input : List Byte) : c.Legal → Reachable (Session.fresh c input)
  | host (h : Session) (op : HostOp) : Reachable h → Reachable (h.apply op).1
  | core (h : Session) : Reachable h → Reachable h.coreStep

end Sys2Proof.Machine
end

