-- ==== Sys2Proof/Certificates/Slice0/Obligations.lean ====
section
/-! DEFINITION. The statements for the provers. First the shapes that several of them share (namespace Sys2Proof.Claims), then one
definition per statement. Values are said as numbers and memory byte by byte, so that a statement does not repeat the
meaning it is about. The faults are said with State.afterFault (rule R245), the frames with the abbreviations of
Safety.lean. -/

namespace Sys2Proof.Claims

open Sys2Proof Machine

/-- The width of a register in bits (rule R15). -/
abbrev bits (r : Byte) : Nat := 8 * registerWidth r

/-- The 16-bit value of the two bytes at an address, high byte first (rules R46, R47). -/
def operandAt (s : State) (a : Nat) : Nat := (s.byte a).toNat * 256 + (s.byte (a + 1)).toNat

/-- The value of the `n` bytes at an address, `n` = 1 or 2 (rules R44, R47). -/
def valueAt (s : State) (a n : Nat) : Nat := if n = 1 then (s.byte a).toNat else operandAt s a

/-- The bytes of an instruction with operand bytes `op0` and `op1:op2 = w`, as the fault record holds them (rule R250). -/
abbrev bytesOf (s : State) (m : Mnemonic) (op0 : Byte) (w : Word) : Record :=
  ⟨s.cfg.opc.byte m, op0, hiByte w, loByte w⟩

/-- Only register `r`, `pc` and its mirror changed. -/
abbrev OnlyRegister (s t : State) (r : Byte) : Prop :=
  s.SameControl t ∧ s.SameRegistersBut t r ∧ s.SameMemoryBut t (registerAddress s.cfg r) (registerWidth r)

/-- The instruction faults, and the state is as rule R245 leaves it. -/
abbrev Faults (i : Instr) (s : State) (k : FaultKind) (b : Record) (info : Word) : Prop :=
  exec i s = .next (s.afterFault k b info)

/-- The rule of a binary accumulator instruction: an illegal register index faults, then an operand outside the buffer
faults, else the register becomes `res bits v m` and nothing else changes (rules R100, R120). -/
def BinaryRule (k : Mnemonic) (mk : Byte → Word → Instr) (res : Nat → Nat → Nat → Nat) : Prop :=
  ∀ (s : State) (r : Byte) (a : Word),
    (32 ≤ r.toNat → Faults (mk r a) s .outOfBounds (bytesOf s k r a) (r.setWidth 16)) ∧
    (r.toNat < 32 → s.cfg.memSize < a.toNat + 2 → Faults (mk r a) s .outOfBounds (bytesOf s k r a) a) ∧
    (r.toNat < 32 → a.toNat + 2 ≤ s.cfg.memSize →
      ∃ t, exec (mk r a) s = .next t ∧
        (t.readReg r).toNat = res (bits r) (s.readReg r).toNat (operandAt s a.toNat) ∧
        OnlyRegister s t r ∧ t.EndsAt (s.pc + 4))

/-- The same for DIV and MOD, with the zero divisor between the operand check and the result (rules R104, R105). -/
def DivisionRule (k : Mnemonic) (mk : Byte → Word → Instr) (res : Nat → Nat → Nat) : Prop :=
  ∀ (s : State) (r : Byte) (a : Word),
    (32 ≤ r.toNat → Faults (mk r a) s .outOfBounds (bytesOf s k r a) (r.setWidth 16)) ∧
    (r.toNat < 32 → s.cfg.memSize < a.toNat + 2 → Faults (mk r a) s .outOfBounds (bytesOf s k r a) a) ∧
    (r.toNat < 32 → a.toNat + 2 ≤ s.cfg.memSize → operandAt s a.toNat = 0 →
      Faults (mk r a) s .divideByZero (bytesOf s k r a) a) ∧
    (r.toNat < 32 → a.toNat + 2 ≤ s.cfg.memSize → operandAt s a.toNat ≠ 0 →
      ∃ t, exec (mk r a) s = .next t ∧
        (t.readReg r).toNat = res (s.readReg r).toNat (operandAt s a.toNat) ∧
        OnlyRegister s t r ∧ t.EndsAt (s.pc + 4))

/-- The rule of a unary accumulator instruction: no memory operand, whatever the ignored bytes `x` (rules R77, R106). -/
def UnaryRule (k : Mnemonic) (mk : Byte → Word → Instr) (res : Nat → Nat → Nat) : Prop :=
  ∀ (s : State) (r : Byte) (x : Word),
    (32 ≤ r.toNat → Faults (mk r x) s .outOfBounds (bytesOf s k r x) (r.setWidth 16)) ∧
    (r.toNat < 32 →
      ∃ t, exec (mk r x) s = .next t ∧ (t.readReg r).toNat = res (bits r) (s.readReg r).toNat ∧
        OnlyRegister s t r ∧ t.EndsAt (s.pc + 4))

/-- The rule of a comparison: as BinaryRule, but the flag is the result and no register or memory byte changes
(rule R140). -/
def ComparisonRule (k : Mnemonic) (mk : Byte → Word → Instr) (rel : Nat → Nat → Bool) : Prop :=
  ∀ (s : State) (r : Byte) (a : Word),
    (32 ≤ r.toNat → Faults (mk r a) s .outOfBounds (bytesOf s k r a) (r.setWidth 16)) ∧
    (r.toNat < 32 → s.cfg.memSize < a.toNat + 2 → Faults (mk r a) s .outOfBounds (bytesOf s k r a) a) ∧
    (r.toNat < 32 → a.toNat + 2 ≤ s.cfg.memSize →
      ∃ t, exec (mk r a) s = .next t ∧ t.flag = rel (s.readReg r).toNat (operandAt s a.toNat) ∧
        t = { s with mem := t.mem, pc := t.pc, flag := t.flag } ∧
        s.SameRegisters t ∧ s.SameMemory t ∧ t.EndsAt (s.pc + 4))

/-- The instruction completes, and changes only `pc`, to the given target, and its mirror. -/
abbrev OnlyMovesPc (i : Instr) (s : State) (target : Word) : Prop :=
  ∃ t, exec i s = .next t ∧ s.SameControl t ∧ s.SameRegisters t ∧ s.SameMemory t ∧ t.EndsAt target

end Sys2Proof.Claims

section Statements

open Sys2Proof Sys2Proof.Machine Sys2Proof.Claims

/-! ### Arithmetic and logic -/

/-- Rules R101, R102, R103: wrapping modulo the register's width, order register minus memory, all faults, the frame. -/
def Obligations.AddSubMulWrapAtTheRegisterWidth : Prop :=
  BinaryRule .add .add (fun n v m => (v + m) % 2 ^ n) ∧
  BinaryRule .sub .sub (fun n v m => (v + 65536 - m) % 2 ^ n) ∧
  BinaryRule .mul .mul (fun n v m => (v * m) % 2 ^ n)

/-- Rules R104, R105: unsigned floor quotient and remainder; DivideByZero on all 16 bits of the operand. -/
def Obligations.DivModAreUnsignedOrDivideByZero : Prop :=
  DivisionRule .div .div (fun v m => v / m) ∧ DivisionRule .mod .mod (fun v m => v % m)

/-- Rules R106, R107. -/
def Obligations.IncDecWrapAtTheRegisterWidth : Prop :=
  UnaryRule .inc .inc (fun n v => (v + 1) % 2 ^ n) ∧ UnaryRule .dec .dec (fun n v => (v + 2 ^ n - 1) % 2 ^ n)

/-- Rules R121, R122, R123: bit by bit on the 16-bit values, the register keeping its width. -/
def Obligations.AndOrXorAreBitwise : Prop :=
  BinaryRule .and .and (fun n v m => (v &&& m) % 2 ^ n) ∧
  BinaryRule .or .or (fun n v m => (v ||| m) % 2 ^ n) ∧
  BinaryRule .xor .xor (fun n v m => (v ^^^ m) % 2 ^ n)

/-- Rule R124: the complement at the register's width. -/
def Obligations.NotComplementsTheRegister : Prop :=
  UnaryRule .not .not (fun n v => 2 ^ n - 1 - v)

/-- Rules R125, R126: the count is the low byte of the operand modulo the register's width; SHR is logical. -/
def Obligations.ShiftsUseTheMaskedCount : Prop :=
  BinaryRule .shl .shl (fun n v m => (v * 2 ^ (m % 256 % n)) % 2 ^ n) ∧
  BinaryRule .shr .shr (fun n v m => v / 2 ^ (m % 256 % n))

/-- Rules R141 to R146: the six relations of unsigned 16-bit values, register on the left. -/
def Obligations.ComparisonsWriteTheFlag : Prop :=
  ComparisonRule .eq .eq (fun v m => decide (v = m)) ∧
  ComparisonRule .neq .neq (fun v m => decide (v ≠ m)) ∧
  ComparisonRule .lt .lt (fun v m => decide (v < m)) ∧
  ComparisonRule .gt .gt (fun v m => decide (m < v)) ∧
  ComparisonRule .lte .lte (fun v m => decide (v ≤ m)) ∧
  ComparisonRule .gte .gte (fun v m => decide (m ≤ v))

/-! ### The data stack -/

/-- Rule R161. -/
def Obligations.PushStoresTheRegisterBelowTheCursor : Prop :=
  ∀ (s : State) (r : Byte) (x : Word), s.cfg.Legal →
    (32 ≤ r.toNat → Faults (.push r x) s .outOfBounds (bytesOf s .push r x) (r.setWidth 16)) ∧
    (r.toNat < 32 → s.sp.toNat < s.cfg.stackBase + registerWidth r →
      Faults (.push r x) s .stackOverflow (bytesOf s .push r x) s.sp) ∧
    (r.toNat < 32 → s.cfg.stackBase + registerWidth r ≤ s.sp.toNat →
      ∃ t, exec (.push r x) s = .next t ∧
        t.sp.toNat + registerWidth r = s.sp.toNat ∧
        valueAt t t.sp.toNat (registerWidth r) = (s.readReg r).toNat ∧
        t = { s with mem := t.mem, pc := t.pc, sp := t.sp } ∧
        s.SameRegisters t ∧ s.SameMemoryBut t t.sp.toNat (registerWidth r) ∧ t.EndsAt (s.pc + 4))

/-- Rule R162. -/
def Obligations.PopMovesTheTopIntoTheRegister : Prop :=
  ∀ (s : State) (r : Byte) (x : Word), s.cfg.Legal →
    (32 ≤ r.toNat → Faults (.pop r x) s .outOfBounds (bytesOf s .pop r x) (r.setWidth 16)) ∧
    (r.toNat < 32 → s.cfg.stackTop < s.sp.toNat + registerWidth r →
      Faults (.pop r x) s .stackUnderflow (bytesOf s .pop r x) s.sp) ∧
    (r.toNat < 32 → s.sp.toNat + registerWidth r ≤ s.cfg.stackTop →
      ∃ t, exec (.pop r x) s = .next t ∧
        (t.readReg r).toNat = valueAt s s.sp.toNat (registerWidth r) ∧
        t.sp.toNat = s.sp.toNat + registerWidth r ∧
        t = { s with mem := t.mem, pc := t.pc, sp := t.sp } ∧
        s.SameRegistersBut t r ∧ s.SameMemoryBut t (registerAddress s.cfg r) (registerWidth r) ∧ t.EndsAt (s.pc + 4))

/-- Rule R163. -/
def Obligations.DupCopiesTheTopByte : Prop :=
  ∀ (s : State) (x0 x1 x2 : Byte), s.cfg.Legal →
    (s.sp.toNat = s.cfg.stackTop →
      Faults (.dup x0 x1 x2) s .stackUnderflow ⟨s.cfg.opc.byte .dup, x0, x1, x2⟩ s.sp) ∧
    (s.sp.toNat = s.cfg.stackBase →
      Faults (.dup x0 x1 x2) s .stackOverflow ⟨s.cfg.opc.byte .dup, x0, x1, x2⟩ s.sp) ∧
    (s.cfg.stackBase < s.sp.toNat → s.sp.toNat < s.cfg.stackTop →
      ∃ t, exec (.dup x0 x1 x2) s = .next t ∧
        t.sp.toNat + 1 = s.sp.toNat ∧ t.byte t.sp.toNat = s.byte s.sp.toNat ∧
        t = { s with mem := t.mem, pc := t.pc, sp := t.sp } ∧
        s.SameRegisters t ∧ s.SameMemoryBut t t.sp.toNat 1 ∧ t.EndsAt (s.pc + 4))

/-- Rule R164. -/
def Obligations.SwapExchangesRegisterAndTop : Prop :=
  ∀ (s : State) (r : Byte) (x : Word), s.cfg.Legal → s.cfg.stackBase ≤ s.sp.toNat →
    (32 ≤ r.toNat → Faults (.swap r x) s .outOfBounds (bytesOf s .swap r x) (r.setWidth 16)) ∧
    (r.toNat < 32 → s.cfg.stackTop < s.sp.toNat + registerWidth r →
      Faults (.swap r x) s .stackUnderflow (bytesOf s .swap r x) s.sp) ∧
    (r.toNat < 32 → s.sp.toNat + registerWidth r ≤ s.cfg.stackTop →
      ∃ t, exec (.swap r x) s = .next t ∧
        (t.readReg r).toNat = valueAt s s.sp.toNat (registerWidth r) ∧
        valueAt t s.sp.toNat (registerWidth r) = (s.readReg r).toNat ∧
        s.SameControl t ∧ s.SameRegistersBut t r ∧
        (∀ k, (k < s.sp.toNat ∨ s.sp.toNat + registerWidth r ≤ k) →
          (k < registerAddress s.cfg r ∨ registerAddress s.cfg r + registerWidth r ≤ k) →
          k ≠ s.mirrorAddress → k ≠ s.mirrorAddress + 1 → t.byte k = s.byte k) ∧
        t.EndsAt (s.pc + 4))

/-- Derived from rule R160: the stack instructions are its primitives push, pop and swap; a 16-bit PUSH is two pushes, low
byte first, a 16-bit POP two pops, high byte first, and a fault leaves everything as it was. -/
def Obligations.StackInstructionsAreThePrimitives : Prop :=
  ∀ (s : State) (r : Byte) (x : Word) (x0 x1 x2 : Byte), s.Inv → r.toNat < 32 →
    (registerWidth r = 1 →
      exec (.push r x) s = .next (match s.pushByte (loByte (s.readReg r)) with
        | some u => u.advance
        | none => s.afterFault .stackOverflow (bytesOf s .push r x) s.sp)) ∧
    (registerWidth r = 2 →
      exec (.push r x) s = .next
        (match (s.pushByte (loByte (s.readReg r))).bind fun u => u.pushByte (hiByte (s.readReg r)) with
        | some u => u.advance
        | none => s.afterFault .stackOverflow (bytesOf s .push r x) s.sp)) ∧
    (registerWidth r = 1 →
      exec (.pop r x) s = .next (match s.popByte with
        | some (b, u) => (u.writeReg r (b.setWidth 16)).advance
        | none => s.afterFault .stackUnderflow (bytesOf s .pop r x) s.sp)) ∧
    (registerWidth r = 2 →
      exec (.pop r x) s = .next
        (match s.popByte.bind fun p => p.2.popByte.map fun q => (p.1, q.1, q.2) with
        | some (hi, lo, u) => (u.writeReg r (joinBytes hi lo)).advance
        | none => s.afterFault .stackUnderflow (bytesOf s .pop r x) s.sp)) ∧
    (registerWidth r = 1 →
      exec (.swap r x) s = .next (match s.swapByte (loByte (s.readReg r)) with
        | some (b, u) => (u.writeReg r (b.setWidth 16)).advance
        | none => s.afterFault .stackUnderflow (bytesOf s .swap r x) s.sp)) ∧
    exec (.dup x0 x1 x2) s = .next (match s.popByte with
      | none => s.afterFault .stackUnderflow ⟨s.cfg.opc.byte .dup, x0, x1, x2⟩ s.sp
      | some (b, _) => match s.pushByte b with
        | none => s.afterFault .stackOverflow ⟨s.cfg.opc.byte .dup, x0, x1, x2⟩ s.sp
        | some u => u.advance)

/-- Derived from rules R161, R162: PUSH and then POP into a register of the same width copies the register and restores the
cursor. -/
def Obligations.PushThenPopReturnsTheValue : Prop :=
  ∀ (s : State) (r q : Byte) (x y : Word), s.cfg.Legal → r.toNat < 32 → q.toNat < 32 →
    registerWidth q = registerWidth r → s.cfg.stackBase + registerWidth r ≤ s.sp.toNat → s.sp.toNat ≤ s.cfg.stackTop →
    ∃ t u, exec (.push r x) s = .next t ∧ exec (.pop q y) t = .next u ∧
      u.readReg q = s.readReg r ∧ u.sp = s.sp ∧ u.state = s.state

/-! ### Control flow -/

/-- Rule R181. -/
def Obligations.JmpGoesToTheTarget : Prop :=
  ∀ (s : State) (x : Byte) (target : Word), OnlyMovesPc (.jmp x target) s target

/-- Rules R182, R183, R184: taken on flag 1, on flag 0, on flag 0; else past the instruction. -/
def Obligations.ConditionalJumpsFollowTheFlag : Prop :=
  ∀ (s : State) (x : Byte) (target : Word),
    OnlyMovesPc (.jmpt x target) s (if s.flag = true then target else s.pc + 4) ∧
    OnlyMovesPc (.jmpf x target) s (if s.flag = false then target else s.pc + 4) ∧
    OnlyMovesPc (.jz x target) s (if s.flag = false then target else s.pc + 4)

/-- Rule R185. A full return-address stack faults with `ras_count` as info; where `ras_count` does not fit the 16 bits of
`fault.info`, the statement says nothing of that value (log entry 6). -/
def Obligations.CallSavesTheNextOffset : Prop :=
  ∀ (s : State) (x : Byte) (target : Word), s.ReturnStackInv →
    (s.rasCount = s.cfg.rasDepth →
      ∃ info, Faults (.call x target) s .stackOverflow (bytesOf s .call x target) info ∧
        (s.rasCount < 65536 → info.toNat = s.rasCount)) ∧
    (s.rasCount < s.cfg.rasDepth →
      ∃ t, exec (.call x target) s = .next t ∧
        t.rasCount = s.rasCount + 1 ∧ t.ras[s.rasCount]? = some (s.pc + 4) ∧
        (∀ j, j ≠ s.rasCount → t.ras[j]? = s.ras[j]?) ∧
        t = { s with mem := t.mem, pc := t.pc, ras := t.ras, rasCount := t.rasCount } ∧
        s.SameRegisters t ∧ s.SameMemory t ∧ t.EndsAt target)

/-- Rule R186. -/
def Obligations.RetReturnsToTheNewestOffset : Prop :=
  ∀ (s : State) (x0 x1 x2 : Byte), s.ReturnStackInv →
    (s.rasCount = 0 → Faults (.ret x0 x1 x2) s .stackUnderflow ⟨s.cfg.opc.byte .ret, x0, x1, x2⟩ 0) ∧
    (0 < s.rasCount →
      ∃ t v, exec (.ret x0 x1 x2) s = .next t ∧ s.ras[s.rasCount - 1]? = some v ∧ t.EndsAt v ∧
        t.rasCount + 1 = s.rasCount ∧ t = { s with mem := t.mem, pc := t.pc, rasCount := t.rasCount } ∧
        s.SameRegisters t ∧ s.SameMemory t)

/-- Derived from rules R185, R186: a RET, from any state with the return-address stack that CALL left, continues after the
CALL and restores the count. -/
def Obligations.RetAfterCallContinuesAfterTheCall : Prop :=
  ∀ (s : State) (x : Byte) (target : Word), s.ReturnStackInv → s.rasCount < s.cfg.rasDepth →
    ∃ t, exec (.call x target) s = .next t ∧
      ∀ (u : State) (x0 x1 x2 : Byte), u.ras = t.ras → u.rasCount = t.rasCount →
        ∃ w, exec (.ret x0 x1 x2) u = .next w ∧ w.pc = s.pc + 4 ∧ w.rasCount = s.rasCount ∧ w.state = u.state

/-! ### Memory, registers, input and output, system -/

/-- Rule R201. -/
def Obligations.LoadCopiesMemoryIntoTheRegister : Prop :=
  ∀ (s : State) (r : Byte) (a : Word),
    (32 ≤ r.toNat → Faults (.load r a) s .outOfBounds (bytesOf s .load r a) (r.setWidth 16)) ∧
    (r.toNat < 32 → s.cfg.memSize < a.toNat + registerWidth r →
      Faults (.load r a) s .outOfBounds (bytesOf s .load r a) a) ∧
    (r.toNat < 32 → a.toNat + registerWidth r ≤ s.cfg.memSize →
      ∃ t, exec (.load r a) s = .next t ∧ (t.readReg r).toNat = valueAt s a.toNat (registerWidth r) ∧
        OnlyRegister s t r ∧ t.EndsAt (s.pc + 4))

/-- Rule R202. The stored bytes are the register's width at `addr16`; a byte of them that is a byte of the mirror PCM is
overwritten by the mirror write at the end of the same instruction. -/
def Obligations.StoreCopiesTheRegisterIntoMemory : Prop :=
  ∀ (s : State) (r : Byte) (a : Word),
    (32 ≤ r.toNat → Faults (.store r a) s .outOfBounds (bytesOf s .store r a) (r.setWidth 16)) ∧
    (r.toNat < 32 → s.cfg.memSize < a.toNat + registerWidth r →
      Faults (.store r a) s .outOfBounds (bytesOf s .store r a) a) ∧
    (r.toNat < 32 → a.toNat < s.cfg.progBase + s.cfg.progSize → s.cfg.progBase < a.toNat + registerWidth r →
      Faults (.store r a) s .outOfBounds (bytesOf s .store r a) a) ∧
    (r.toNat < 32 → a.toNat + registerWidth r ≤ s.cfg.memSize →
      (s.cfg.progBase + s.cfg.progSize ≤ a.toNat ∨ a.toNat + registerWidth r ≤ s.cfg.progBase) →
      ∃ t, exec (.store r a) s = .next t ∧
        (∀ k, k < registerWidth r → a.toNat + k ≠ s.mirrorAddress → a.toNat + k ≠ s.mirrorAddress + 1 →
          (t.byte (a.toNat + k)).toNat = (s.readReg r).toNat / 256 ^ (registerWidth r - 1 - k) % 256) ∧
        s.SameControl t ∧ s.SameMemoryBut t a.toNat (registerWidth r) ∧
        (∀ q : Byte, q.toNat < 32 →
          (registerAddress s.cfg q + registerWidth q ≤ a.toNat ∨ a.toNat + registerWidth r ≤ registerAddress s.cfg q) →
          t.readReg q = s.readReg q) ∧
        t.EndsAt (s.pc + 4))

/-- Rule R203. -/
def Obligations.MovWritesTheImmediate : Prop :=
  ∀ (s : State) (r hi lo : Byte),
    (32 ≤ r.toNat → Faults (.mov r (joinBytes hi lo)) s .outOfBounds ⟨s.cfg.opc.byte .mov, r, hi, lo⟩ (r.setWidth 16)) ∧
    (r.toNat < 32 →
      ∃ t, exec (.mov r (joinBytes hi lo)) s = .next t ∧
        (t.readReg r).toNat = (hi.toNat * 256 + lo.toNat) % 2 ^ bits r ∧
        OnlyRegister s t r ∧ t.EndsAt (s.pc + 4))

/-- Rule R221, for every input stream. -/
def Obligations.InReadsTheNextInputByte : Prop :=
  ∀ (s : State) (r : Byte) (x : Word),
    (32 ≤ r.toNat → Faults (.inp r x) s .outOfBounds (bytesOf s .inp r x) (r.setWidth 16)) ∧
    (r.toNat < 32 → s.inStream.length ≤ s.inPos → Faults (.inp r x) s .ioError (bytesOf s .inp r x) 0) ∧
    (∀ b, r.toNat < 32 → s.inStream[s.inPos]? = some b →
      ∃ t, exec (.inp r x) s = .next t ∧ (t.readReg r).toNat = b.toNat ∧ t.inPos = s.inPos + 1 ∧
        t = { s with mem := t.mem, pc := t.pc, inPos := t.inPos } ∧
        s.SameRegistersBut t r ∧ s.SameMemoryBut t (registerAddress s.cfg r) (registerWidth r) ∧ t.EndsAt (s.pc + 4))

/-- Rule R222. -/
def Obligations.OutAppendsTheLowByte : Prop :=
  ∀ (s : State) (r : Byte) (x : Word),
    (32 ≤ r.toNat → Faults (.out r x) s .outOfBounds (bytesOf s .out r x) (r.setWidth 16)) ∧
    (r.toNat < 32 →
      ∃ t b, exec (.out r x) s = .next t ∧ t.out = s.out ++ [b] ∧ b.toNat = (s.readReg r).toNat % 256 ∧
        t = { s with mem := t.mem, pc := t.pc, out := t.out } ∧
        s.SameRegisters t ∧ s.SameMemory t ∧ t.EndsAt (s.pc + 4))

/-- Rules R223, R224. -/
def Obligations.LabAndNopOnlyAdvance : Prop :=
  ∀ (s : State) (x0 x1 x2 : Byte),
    OnlyMovesPc (.lab x0 x1 x2) s (s.pc + 4) ∧ OnlyMovesPc (.nop x0 x1 x2) s (s.pc + 4)

/-- Rule R225: SYS's own effect is the fault UnimplementedOpcode, whatever its operand bytes, and it is the only instruction
that raises this kind. -/
def Obligations.SysRaisesUnimplementedOpcode : Prop :=
  (∀ (s : State) (x0 x1 x2 : Byte),
    Faults (.sys x0 x1 x2) s .unimplementedOpcode ⟨s.cfg.opc.byte .sys, x0, x1, x2⟩
      (BitVec.ofNat 16 (s.cfg.progBase + s.pc.toNat))) ∧
  (∀ (i : Instr) (s t : State), s.state = .running → exec i s = .next t → t.state = .faulted →
    t.fault.kind = .unimplementedOpcode → ∃ x0 x1 x2, i = .sys x0 x1 x2)

/-- Rule R226. -/
def Obligations.HaltRecordsTheStatusAndAdvances : Prop :=
  ∀ (s : State) (x : Word) (status : Byte),
    ∃ t, exec (.halt x status) s = .next t ∧ t.state = .halted ∧ t.exitCode = status ∧
      t = { s with mem := t.mem, pc := t.pc, state := t.state, exitCode := t.exitCode } ∧
      s.SameRegisters t ∧ s.SameMemory t ∧ t.EndsAt (s.pc + 4) ∧
      step t = .fault .alreadyHalted

/-! ### Encoding and text -/

/-- Derived from rule R82 (half of it is the spec's own inference), under every legal opcode table: decode of encode and encode
of decode, and the order of the bytes. -/
def Obligations.DecodeAndEncodeAreInverse : Prop :=
  ∀ t : OpcodeTable, t.Legal →
    (∀ i, decodeRecord t (encode t i) = .ok i) ∧
    (∀ b i, decodeRecord t b = .ok i → encode t i = b) ∧
    (∀ i rest, decode t ((encode t i).bytes ++ rest) = .ok (i, rest)) ∧
    (∀ i, (encode t i).bytes = [t.byte i.mnemonic, i.operands.1, i.operands.2.1, i.operands.2.2])

/-- Derived from rules R71, R75, R76: words written out from the encodings decode to the instructions they stand for. A sanity
statement. -/
def Obligations.SpecWordsDecode : Prop :=
  decodeTableWord 32 0x01104200 = some (.add 16 0x4200) ∧
  decodeTableWord 32 0x0B000000 = some (.not 0 0) ∧
  decodeTableWord 32 0x10104200 = some (.lt 16 0x4200) ∧
  decodeTableWord 32 0x15110000 = some (.pop 17 0) ∧
  decodeTableWord 32 0x1C000018 = some (.call 0 0x0018) ∧
  decodeTableWord 32 0x20101234 = some (.mov 16 0x1234) ∧
  decodeTableWord 32 0x250909FF = some (.halt 0x0909 0xFF)

/-- Derived from rules R76, R81: the all-zero record is NOP 0 0 0 under every legal opcode table. -/
def Obligations.AllZeroRecordIsNop : Prop :=
  ∀ t : OpcodeTable, t.Legal → decodeRecord t ⟨0, 0, 0, 0⟩ = .ok (.nop 0 0 0)

/-- Rules R78, R241: an opcode byte of no mnemonic faults InvalidOpcode with the four fetched bytes; under the default table
these are 0x26 to 0xFF. -/
def Obligations.IllegalOpcodeFaults : Prop :=
  (∀ (s : State) (b : Record), s.state = .running → s.fetch = some b → (∀ m, s.cfg.opc.byte m ≠ b.opc) →
    step s = .next (s.afterFault .invalidOpcode b (BitVec.ofNat 16 (s.cfg.progBase + s.pc.toNat)))) ∧
  (∀ b : Record, decodeRecord OpcodeTable.default b = .error (.invalidOpcode b.opc) ↔ 0x26 ≤ b.opc.toNat)

/-- Rule R79: in every instruction with a register operand, an index of 32 or more faults OutOfBounds with the index,
before anything else is looked at. -/
def Obligations.IllegalRegisterFaultsFirst : Prop :=
  ∀ (i : Instr) (r : Byte) (s : State), i.registerOperand = some r → 32 ≤ r.toNat →
    Faults i s .outOfBounds (encode s.cfg.opc i) (r.setWidth 16)

/-- Rule R91: parsing what was printed gives the instruction back. -/
def Obligations.AssemblyTextRoundTrip : Prop :=
  (∀ i : Instr, Asm.parse (Asm.format i) = .ok i) ∧
  (∀ i : Instr, Asm.format i = Asm.mnemonicText i.mnemonic ++ ' ' :: Asm.decimal i.operands.1 ++
    ' ' :: Asm.decimal i.operands.2.1 ++ ' ' :: Asm.decimal i.operands.2.2)

/-! ### The cycle -/

/-- Derived from rule R290: when the four bytes at PROG_BASE + pc decode to an instruction, the step is that instruction's
meaning, with nothing around it. -/
def Obligations.StepRunsTheDecodedInstruction : Prop :=
  ∀ (s : State) (i : Instr), s.state = .running → s.pc.toNat + 4 ≤ s.cfg.progSize →
    decodeRecord s.cfg.opc ⟨s.byte (s.cfg.progBase + s.pc.toNat), s.byte (s.cfg.progBase + s.pc.toNat + 1),
      s.byte (s.cfg.progBase + s.pc.toNat + 2), s.byte (s.cfg.progBase + s.pc.toNat + 3)⟩ = .ok i →
    step s = exec i s

/-- Rule R72: the fetch is the four bytes in address order when it lies in the program segment, and faults OutOfBounds with
zero bytes recorded when it does not. -/
def Obligations.FetchIsHeldToTheProgramSegment : Prop :=
  ∀ s : State,
    (s.pc.toNat + 4 ≤ s.cfg.progSize →
      s.fetch = some ⟨s.byte (s.cfg.progBase + s.pc.toNat), s.byte (s.cfg.progBase + s.pc.toNat + 1),
        s.byte (s.cfg.progBase + s.pc.toNat + 2), s.byte (s.cfg.progBase + s.pc.toNat + 3)⟩) ∧
    (s.state = .running → s.cfg.progSize < s.pc.toNat + 4 →
      step s = .next (s.afterFault .outOfBounds ⟨0, 0, 0, 0⟩ (BitVec.ofNat 16 ((s.cfg.progBase + s.pc.toNat) % 65536))))

/-- Derived from rules R291, R294: a Running CORE always has a next state; no other CORE has one. -/
def Obligations.StepsExistExactlyWhenRunning : Prop :=
  ∀ s : State, (∃ t, step s = .next t) ↔ s.state = .running

/-- Rule R245 over every step, with the record of rule R250: a fault writes the record and the engine state and leaves
everything else as it was; the bytes are the fetched ones, zero when the fetch failed; and the CORE stops for good. -/
def Obligations.FaultsLeaveEverythingElseUnchanged : Prop :=
  ∀ s t : State, step s = .next t → t.state = .faulted →
    (∃ k info, k ≠ .none ∧ k ≠ .sizeMismatch ∧ t = s.afterFault k (s.fetch.getD ⟨0, 0, 0, 0⟩) info) ∧
      step t = .fault .alreadyFaulted

/-- Rule R28: the only transitions of the engine, its reset value, and its encoding. -/
def Obligations.EngineTransitionsAreTheThree : Prop :=
  (∀ s t : State, step s = .next t →
    s.state = .running ∧
    (t.state = .running ∨ t.state = .faulted ∨
      (t.state = .halted ∧ ∃ b x status, s.fetch = some b ∧ decodeRecord s.cfg.opc b = .ok (.halt x status)))) ∧
  (∀ (h : Session) (op : HostOp), (∀ input, op ≠ .reset input) →
    (h.apply op).1.core.state = h.core.state ∨
      (op = .run ∧ h.core.state = .loaded ∧ (h.apply op).1.core.state = .running)) ∧
  (∀ (h : Session) (input : List Byte), (h.apply (.reset input)).1.core.state = .loaded) ∧
  EngineState.loaded.code = 0 ∧ EngineState.running.code = 1 ∧ EngineState.halted.code = 2 ∧ EngineState.faulted.code = 3

/-- Derived from rule R22: an instruction that completes and is no transfer advances `pc` by 4, HALT included. -/
def Obligations.PcAdvancesByFourExceptTransfers : Prop :=
  ∀ (i : Instr) (s t : State), s.state = .running → exec i s = .next t → t.state ≠ .faulted →
    isTransfer i = false → t.pc = s.pc + 4

/-! ### Whole-machine rules -/

/-- Derived from rules R25, R140, R180: only comparisons write the flag, and an instruction that is neither a comparison nor a
conditional jump behaves the same whatever the flag is. -/
def Obligations.FlagIsWrittenByComparisonsAndReadByJumps : Prop :=
  ∀ (i : Instr) (s : State),
    (∀ t, isComparison i = false → exec i s = .next t → t.flag = s.flag) ∧
    (∀ b, isComparison i = false → isConditionalJump i = false →
      exec i (s.setFlag b) = onNext (fun t => t.setFlag b) (exec i s))

/-- Derived from rule R165: only PUSH, POP and DUP move the cursor, by at most 2. -/
def Obligations.OnlyStackInstructionsMoveTheCursor : Prop :=
  ∀ (i : Instr) (s t : State), s.cfg.Legal → s.CursorInv → exec i s = .next t →
    (movesCursor i = false → t.sp = s.sp) ∧ t.sp.toNat ≤ s.sp.toNat + 2 ∧ s.sp.toNat ≤ t.sp.toNat + 2

/-- Derived from rule R27: only CALL and RET change the return-address stack, and no other instruction depends on it. -/
def Obligations.OnlyCallAndRetUseTheReturnStack : Prop :=
  ∀ (i : Instr) (s : State), usesReturnStack i = false →
    (∀ t, exec i s = .next t → t.ras = s.ras ∧ t.rasCount = s.rasCount) ∧
    (∀ l n, exec i ((s.setRas l).setRasCount n) = onNext (fun t => (t.setRas l).setRasCount n) (exec i s))

/-- Derived from rules R52, R59: no step changes a byte of the program segment. -/
def Obligations.ProgramTextIsConstant : Prop :=
  ∀ s t : State, s.Inv → step s = .next t →
    ∀ a, s.cfg.progBase ≤ a → a < s.cfg.progBase + s.cfg.progSize → t.byte a = s.byte a

/-- Derived from rule R31: a step consumes at most one input byte and emits at most one output byte, after those emitted
before; the configuration and the input stream never change. -/
def Obligations.StreamsOnlyAdvance : Prop :=
  ∀ s t : State, step s = .next t →
    t.cfg = s.cfg ∧ t.inStream = s.inStream ∧
    (t.inPos = s.inPos ∨ t.inPos = s.inPos + 1) ∧ (t.out = s.out ∨ ∃ b, t.out = s.out ++ [b])

/-- Derived from rules R31, R290: a step depends on the input stream only through the next byte (its presence and value). -/
def Obligations.InputBeyondTheNextByteIsUnseen : Prop :=
  ∀ (s : State) (input : List Byte), input[s.inPos]? = s.inStream[s.inPos]? →
    step (s.setInStream input) = onNext (fun t => t.setInStream input) (step s)

/-- Rules R16, R17: what a register read is, what a register write stores, and that it touches no other byte. -/
def Obligations.RegistersReadAndWriteTheirOwnBytes : Prop :=
  ∀ (s : State) (r : Byte) (v : Word),
    (r.toNat ≤ 15 → (s.readReg r).toNat = (s.byte r.toNat).toNat ∧ (s.writeReg r v).byte r.toNat = loByte v ∧
      ∀ k, k ≠ r.toNat → (s.writeReg r v).byte k = s.byte k) ∧
    (16 ≤ r.toNat → r.toNat < 32 →
      (s.readReg r).toNat = (s.byte (16 + 2 * (r.toNat - 16))).toNat * 256 + (s.byte (17 + 2 * (r.toNat - 16))).toNat ∧
      (s.writeReg r v).byte (16 + 2 * (r.toNat - 16)) = hiByte v ∧
      (s.writeReg r v).byte (17 + 2 * (r.toNat - 16)) = loByte v ∧
      ∀ k, k ≠ 16 + 2 * (r.toNat - 16) → k ≠ 17 + 2 * (r.toNat - 16) → (s.writeReg r v).byte k = s.byte k) ∧
    (s.writeReg r v) = { s with mem := (s.writeReg r v).mem }

/-- Rule R48, with the checks of rules R43 and R52: a write lands whole, high byte first, or not at all. -/
def Obligations.MemWriteIsWholeOrNothing : Prop :=
  ∀ (s : State) (a n : Nat) (v : Word), n = 1 ∨ n = 2 →
    ((s.cfg.memSize < a + n ∨ (a < s.cfg.progBase + s.cfg.progSize ∧ s.cfg.progBase < a + n)) →
      s.memWrite a n v = none) ∧
    (a + n ≤ s.cfg.memSize → (s.cfg.progBase + s.cfg.progSize ≤ a ∨ a + n ≤ s.cfg.progBase) →
      ∃ t, s.memWrite a n v = some t ∧ t = { s with mem := t.mem } ∧
        (n = 1 → t.byte a = loByte v) ∧ (n = 2 → t.byte a = hiByte v ∧ t.byte (a + 1) = loByte v) ∧
        ∀ k, (k < a ∨ a + n ≤ k) → t.byte k = s.byte k)

/-- Derived from rule R23: where the mirror holds `pc`, a 16-bit LOAD of it gives the offset of the LOAD itself. -/
def Obligations.MirrorReadsTheOffsetOfTheReader : Prop :=
  ∀ (s : State) (r : Byte), s.cfg.Legal → s.MirrorInv → 16 ≤ r.toNat → r.toNat < 32 →
    ∃ t, exec (.load r (BitVec.ofNat 16 s.mirrorAddress)) s = .next t ∧ t.readReg r = s.pc ∧ t.MirrorInv

/-! ### Reset, the invariant, the host -/

/-- Rule R280: what reset leaves, from any session, in any state of the engine. -/
def Obligations.ResetLeavesTheSpecValues : Prop :=
  ∀ (h : Session) (input : List Byte), h.core.cfg.Legal →
    ∃ t, (h.apply (.reset input)).1.core = t ∧ t.cfg = h.core.cfg ∧
      (∀ a, t.byte a = 0) ∧
      t.pc = 0 ∧ t.flag = false ∧ t.sp.toNat = t.cfg.stackTop ∧ t.rasCount = 0 ∧
      t.ras.length = t.cfg.rasDepth ∧ (∀ v ∈ t.ras, v = 0) ∧
      t.state = .loaded ∧ t.exitCode = 0 ∧ t.fault = ⟨.none, 0, 0, 0, 0, 0, 0⟩ ∧ t.inPos = 0 ∧ t.out = []

/-- Derived from rules R280, R12 (the spec draws the inference itself, in R281): all 32 registers and the mirror PCM read 0
after reset. -/
def Obligations.RegistersReadZeroAfterReset : Prop :=
  ∀ (h : Session) (input : List Byte) (q : Byte), q.toNat < 32 →
    (h.apply (.reset input)).1.core.readReg q = 0 ∧
      (h.apply (.reset input)).1.core.readN (h.apply (.reset input)).1.core.mirrorAddress 2 = 0

/-- Derived from rule R33: the invariant holds after reset, for CFG0 (log entry 2) and for every legal configuration. -/
def Obligations.ResetSatisfiesTheInvariant : Prop :=
  State.reset.Inv ∧ ∀ (c : Config) (input : List Byte), c.Legal → (State.resetWith c input).Inv

/-- Derived from rules R11, R23, R26, R27, R29 to R31: every step keeps the invariant, in every legal configuration: the memory
canonical and inside the buffer, the cursor inside the stack segment, the return-address stack within its depth, the
mirror equal to `pc`, the outcome records zero until the run ends. -/
def Obligations.EveryStepKeepsTheInvariant : Prop :=
  ∀ s t : State, s.Inv → step s = .next t → t.Inv

/-- Derived from rules R165, R285, R288, R290: every state of every run of every image in every legal configuration satisfies
the invariant. -/
def Obligations.ReachableStatesSatisfyTheInvariant : Prop :=
  ∀ s : State, s.Reachable → s.Inv ∧ s.state ≠ .loaded

/-- Derived from rules R285, R286, R258: in Loaded, the first load copies the whole image and nothing else; a load that fails is
reported to the caller (OutOfBounds for an image that is too long, IOError for one that the host cannot read, SizeMismatch for
data of another length than its block) and leaves the CORE as it was. The model's choices are: that `run` after a failed load,
a second load, and a load outside Loaded are refused by name (log entry 9; the rules only forbid them to the host); and that
data of another length than a block longer than PROG_SIZE is reported as SizeMismatch, where OutOfBounds holds too (log
entry 10). -/
def Obligations.LoadCopiesTheImageOnce : Prop :=
  (∀ (h : Session) (image : List Byte), h.core.cfg.Legal → h.core.state = .loaded → h.loadDone = false →
    h.startupAborted = false →
    (image.length ≤ h.core.cfg.progSize →
      ∃ t, h.apply (.load image) = (⟨t, true, false⟩, none) ∧ t = { h.core with mem := t.mem } ∧
        (∀ k b, image[k]? = some b → t.byte (h.core.cfg.progBase + k) = b) ∧
        (∀ a, (a < h.core.cfg.progBase ∨ h.core.cfg.progBase + image.length ≤ a) → t.byte a = h.core.byte a) ∧
        (∀ image', (⟨t, true, false⟩ : Session).apply (.load image') = (⟨t, true, false⟩, some .notAllowed)) ∧
        (⟨t, true, false⟩ : Session).apply .loadUnreadable = (⟨t, true, false⟩, some .notAllowed)) ∧
    (h.core.cfg.progSize < image.length →
      h.apply (.load image) = (⟨h.core, false, true⟩, some .outOfBounds)) ∧
    (∀ size, image.length ≠ size → h.apply (.loadBlock size image) = (⟨h.core, false, true⟩, some .sizeMismatch)) ∧
    h.apply (.loadBlock image.length image) = h.apply (.load image) ∧
    h.apply .loadUnreadable = (⟨h.core, false, true⟩, some .ioError) ∧
    (⟨h.core, false, true⟩ : Session).apply .run = (⟨h.core, false, true⟩, some .notAllowed)) ∧
  (∀ (h : Session) (image : List Byte) (size : Nat), h.core.state ≠ .loaded →
    h.apply (.load image) = (h, some .notAllowed) ∧ h.apply (.loadBlock size image) = (h, some .notAllowed) ∧
    h.apply .loadUnreadable = (h, some .notAllowed))

/-- Derived from rules R258, R286: in every session that a host comes to, an aborted start-up leaves the CORE in Loaded with its
reset state (zero memory, a zero fault record); only the input stream is the environment's. So does a host that has not loaded
and has not given `run`. That this stays so whatever the host does next short of a reset is the model's choice (log entry 9:
`run` and a load are then refused by name; the rules only forbid `run` to the host). -/
def Obligations.AbortedStartupLeavesTheResetState : Prop :=
  ∀ h : Session, h.Reachable →
    (h.startupAborted = true ∨ (h.core.state = .loaded ∧ h.loadDone = false)) →
    h.core = State.resetWith h.core.cfg h.core.inStream ∧ h.loadDone = false

/-- Derived from rules R284, R288: `run` in Loaded, where start-up was not aborted, sets Running and changes nothing else; bytes
supplied in Loaded or Running change the input stream alone; an operation that reports an error leaves the CORE as it was. The
model's choices are: that `run` outside Loaded, and any operation where the table does not allow it, is refused by name and
changes nothing (log entry 9); and that supplied bytes follow those already supplied (log entry 10). -/
def Obligations.HostOperationsKeepToTheirStates : Prop :=
  ∀ h : Session,
    (h.core.state = .loaded → h.startupAborted = false →
      h.apply .run = (⟨{ h.core with state := .running }, h.loadDone, false⟩, none)) ∧
    (h.core.state ≠ .loaded → (h.apply .run).1 = h ∧ (h.apply .run).2 = some .notAllowed) ∧
    (h.core.state = .loaded ∨ h.core.state = .running → ∀ bytes,
      h.apply (.supply bytes) =
        (⟨{ h.core with inStream := h.core.inStream ++ bytes }, h.loadDone, h.startupAborted⟩, none)) ∧
    (∀ op e, (h.apply op).2 = some e → (h.apply op).1.core = h.core)

/-- Derived from rules R61, R43, R259, R284: a block write stores its data and nothing else and reads back byte-identical, or fails
with OutOfBounds or SizeMismatch (which of the two where both hold is the model's choice, log entry 10); a block read gives the
bytes of its range or fails with OutOfBounds; the diagnostic port is that read when the CORE has stopped, and gives nothing
before (a named refusal, log entry 9). -/
def Obligations.BlocksReadBackAndDiagnosticsAreBounded : Prop :=
  (∀ (s : State) (a n : Nat) (data : List Byte),
    (data.length = n → a + n ≤ s.cfg.memSize →
      ∃ t, s.writeBlock a n data = .ok t ∧ t = { s with mem := t.mem } ∧
        (∀ k b, data[k]? = some b → t.byte (a + k) = b) ∧ (∀ k, (k < a ∨ a + n ≤ k) → t.byte k = s.byte k) ∧
        t.readBlock a n = .ok data) ∧
    (data.length = n → s.cfg.memSize < a + n → s.writeBlock a n data = .error .outOfBounds) ∧
    (data.length ≠ n → s.writeBlock a n data = .error .sizeMismatch)) ∧
  (∀ (s : State) (a n : Nat),
    (a + n ≤ s.cfg.memSize →
      ∃ bytes, s.readBlock a n = .ok bytes ∧ bytes.length = n ∧ ∀ k, k < n → bytes[k]? = some (s.byte (a + k))) ∧
    (s.cfg.memSize < a + n → s.readBlock a n = .error .outOfBounds)) ∧
  (∀ (s : State) (a n : Nat), s.state = .halted ∨ s.state = .faulted →
    (a + n ≤ s.cfg.memSize →
      ∃ bytes, s.diagnosticRead a n = .ok bytes ∧ bytes.length = n ∧
        ∀ k, k < n → bytes[k]? = some (s.byte (a + k))) ∧
    (s.cfg.memSize < a + n → s.diagnosticRead a n = .error .outOfBounds)) ∧
  (∀ (s : State) (a n : Nat), s.state = .loaded ∨ s.state = .running → s.diagnosticRead a n = .error .notAllowed)

/-- Derived from rules R259, R284: the diagnostic port shows every dedicated register when the CORE has stopped, and nothing
before (a named refusal, log entry 9). -/
def Obligations.DiagnosticPortShowsTheDedicatedRegisters : Prop :=
  ∀ s : State,
    (s.state = .halted ∨ s.state = .faulted →
      ∃ v, s.diagnosticRegisters = .ok v ∧ v.pc = s.pc ∧ v.flag = s.flag ∧ v.sp = s.sp ∧ v.rasCount = s.rasCount ∧
        v.ras = s.ras ∧ v.state = s.state ∧ v.exitCode = s.exitCode ∧ v.fault = s.fault ∧ v.out = s.out) ∧
    (s.state = .loaded ∨ s.state = .running → s.diagnosticRegisters = .error .notAllowed)

end Statements
end

