-- ==== Sys2Proof/Laws/Decode.lean ====
section
/-! SUPPORT. The opcode table: every mnemonic is looked for, a lookup gives a mnemonic with that byte, and a legal table gives each
mnemonic back from its own byte. -/

namespace Sys2Proof

theorem Mnemonic.mem_all (m : Mnemonic) : m ∈ Mnemonic.all := by cases m <;> decide

/-- Mnemonics at the same position of the table are the same. -/
theorem Mnemonic.position_inj {m n : Mnemonic} (h : m.position = n.position) : m = n := by
  revert h
  cases m <;> cases n <;> decide

/-- A legal table gives different mnemonics different bytes (rule R5). -/
theorem OpcodeTable.byte_inj {t : OpcodeTable} (h : t.Legal) {m n : Mnemonic} (e : t.byte m = t.byte n) : m = n := by
  have hn := h.1
  rw [List.nodup_iff_injective_getElem] at hn
  have := @hn ⟨m.position.1, by simp⟩ ⟨n.position.1, by simp⟩ (by simpa [OpcodeTable.byte, Vector.get] using e)
  exact Mnemonic.position_inj (by simpa [Fin.ext_iff] using this)

/-- What a lookup finds has that byte. -/
theorem OpcodeTable.byte_of_lookup {t : OpcodeTable} {b : Byte} {m : Mnemonic} (h : t.lookup b = some m) :
    t.byte m = b := by
  simpa using List.find?_some h

/-- A lookup finds nothing exactly when no mnemonic has that byte. -/
theorem OpcodeTable.lookup_eq_none {t : OpcodeTable} {b : Byte} : t.lookup b = none ↔ ∀ m, t.byte m ≠ b := by
  simp [OpcodeTable.lookup, Mnemonic.mem_all]

/-- A legal table finds each mnemonic from its own byte. -/
theorem OpcodeTable.lookup_byte {t : OpcodeTable} (h : t.Legal) (m : Mnemonic) : t.lookup (t.byte m) = some m := by
  cases e : t.lookup (t.byte m) with
  | none => exact absurd rfl (OpcodeTable.lookup_eq_none.1 e m)
  | some n => rw [OpcodeTable.byte_inj h (OpcodeTable.byte_of_lookup e)]

end Sys2Proof
end

