-- ==== Sys2Proof/Laws/Memory.lean ====
section
/-! SUPPORT. The laws of the memory image: a read after a write, the canonical form kept by every operation, and equality of
canonical memories from equality of their bytes. -/

namespace Sys2Proof.Machine.Memory

open Sys2Proof

/-! ### Reading after an operation -/

@[simp] theorem read_nil (a : Nat) : read [] a = unlisted := rfl

theorem read_erase (m : Memory) (a k : Nat) : (m.erase a).read k = if k = a then unlisted else m.read k := by
  induction m with
  | nil => simp [erase]
  | cons c m ih =>
    obtain ⟨j, b⟩ := c
    by_cases h : a = j <;> by_cases h' : k = j <;> by_cases h'' : k = a <;> simp_all [erase, read]

theorem read_enter (m : Memory) (a k : Nat) (v : Byte) : (m.enter a v).read k = if k = a then v else m.read k := by
  induction m with
  | nil => simp [enter, read]
  | cons c m ih =>
    obtain ⟨j, b⟩ := c
    unfold enter
    split
    · simp [read]
    · split
      · subst_vars; by_cases h : k = j <;> simp [read, h]
      · by_cases h : k = j <;> simp_all [read]
        omega

/-- A read after a write: the written byte at its address, the old byte everywhere else. -/
theorem read_write (m : Memory) (a k : Nat) (v : Byte) : (m.write a v).read k = if k = a then v else m.read k := by
  unfold write
  split
  · subst_vars; exact read_erase m a k
  · exact read_enter m a k v

@[simp] theorem read_write_same (m : Memory) (a : Nat) (v : Byte) : (m.write a v).read a = v := by simp [read_write]

theorem read_write_other (m : Memory) (a k : Nat) (v : Byte) (h : k ≠ a) : (m.write a v).read k = m.read k := by
  simp [read_write, h]

/-- A read after a block write: the block's byte inside the block, the old byte outside. -/
theorem read_writeBlock (m : Memory) (a k : Nat) (bs : List Byte) :
    (m.writeBlock a bs).read k = if a ≤ k ∧ k < a + bs.length then bs.getD (k - a) 0 else m.read k := by
  induction bs generalizing m a with
  | nil =>
    have : ¬(a ≤ k ∧ k < a + 0) := by omega
    simp [writeBlock]
  | cons b bs ih =>
    simp only [writeBlock, ih, read_write, List.length_cons]
    rcases Nat.lt_trichotomy k a with h | h | h
    · have h1 : ¬(a + 1 ≤ k ∧ k < a + 1 + bs.length) := by omega
      have h2 : ¬(a ≤ k ∧ k < a + (bs.length + 1)) := by omega
      simp only [if_neg h1, if_neg h2, if_neg (Nat.ne_of_lt h)]
    · subst h
      have h1 : ¬(k + 1 ≤ k ∧ k < k + 1 + bs.length) := by omega
      have h2 : k ≤ k ∧ k < k + (bs.length + 1) := by omega
      rw [if_neg h1, if_pos h2]; simp
    · obtain ⟨d, rfl⟩ := Nat.exists_eq_add_of_lt h
      have e : a + d + 1 - a = (a + d + 1 - (a + 1)) + 1 := by omega
      by_cases h1 : a + 1 ≤ a + d + 1 ∧ a + d + 1 < a + 1 + bs.length
      · rw [if_pos h1, if_pos (by omega), e]; simp
      · rw [if_neg h1, if_neg (by omega), if_neg (by omega)]

theorem length_readBlock (m : Memory) (a n : Nat) : (m.readBlock a n).length = n := by
  induction n generalizing a with
  | zero => rfl
  | succ n ih => simp [readBlock, ih]

/-- A block read gives the bytes of its range, in order. -/
theorem getElem?_readBlock (m : Memory) {n k : Nat} (a : Nat) (hk : k < n) :
    (m.readBlock a n)[k]? = some (m.read (a + k)) := by
  induction n generalizing a k with
  | zero => omega
  | succ n ih =>
    cases k with
    | zero => simp [readBlock]
    | succ k =>
      rw [readBlock, List.getElem?_cons_succ, ih (a + 1) (by omega), show a + 1 + k = a + (k + 1) by omega]

/-! ### The canonical form -/

theorem wfFrom_mono {lo lo' : Nat} {m : Memory} (h : wfFrom lo m = true) (hl : lo' ≤ lo) : wfFrom lo' m = true := by
  cases m with
  | nil => rfl
  | cons c m =>
    obtain ⟨j, b⟩ := c
    simp only [wfFrom, Bool.and_eq_true, decide_eq_true_eq] at h ⊢
    exact ⟨⟨by omega, h.1.2⟩, h.2⟩

theorem wfFrom_erase {lo : Nat} {m : Memory} (h : wfFrom lo m = true) (a : Nat) : wfFrom lo (m.erase a) = true := by
  induction m generalizing lo with
  | nil => rfl
  | cons c m ih =>
    obtain ⟨j, b⟩ := c
    simp only [wfFrom, Bool.and_eq_true, decide_eq_true_eq] at h
    unfold erase
    split
    · exact wfFrom_mono (ih h.2) (by omega)
    · simpa [wfFrom, h.1.1, h.1.2] using ih h.2

theorem wfFrom_enter {lo a : Nat} {m : Memory} {v : Byte} (h : wfFrom lo m = true) (hv : v ≠ unlisted)
    (ha : lo ≤ a) : wfFrom lo (m.enter a v) = true := by
  induction m generalizing lo with
  | nil => simp [enter, wfFrom, ha, hv]
  | cons c m ih =>
    obtain ⟨j, b⟩ := c
    simp only [wfFrom, Bool.and_eq_true, decide_eq_true_eq] at h
    unfold enter
    split
    · simp only [wfFrom, Bool.and_eq_true, decide_eq_true_eq]
      exact ⟨⟨ha, hv⟩, ⟨by omega, h.1.2⟩, h.2⟩
    · split
      · subst_vars; simpa [wfFrom, ha, hv] using h.2
      · simp only [wfFrom, Bool.and_eq_true, decide_eq_true_eq]
        exact ⟨h.1, ih h.2 (by omega)⟩

/-- A write keeps the canonical form. -/
theorem wf_write {m : Memory} (h : m.wf = true) (a : Nat) (v : Byte) : (m.write a v).wf = true := by
  unfold write
  split
  · exact wfFrom_erase h a
  · exact wfFrom_enter h (by assumption) (Nat.zero_le a)

/-- A block write keeps the canonical form. -/
theorem wf_writeBlock {m : Memory} (h : m.wf = true) (a : Nat) (bs : List Byte) : (m.writeBlock a bs).wf = true := by
  induction bs generalizing m a with
  | nil => exact h
  | cons b bs ih => exact ih (wf_write h a b) (a + 1)

theorem below_erase {m : Memory} {n : Nat} (h : m.below n = true) (a : Nat) : (m.erase a).below n = true := by
  induction m with
  | nil => rfl
  | cons c m ih =>
    obtain ⟨j, b⟩ := c
    simp only [below, List.all_cons, Bool.and_eq_true] at h
    unfold erase
    split
    · exact ih h.2
    · simpa [below, h.1] using ih h.2

theorem below_enter {m : Memory} {n a : Nat} (h : m.below n = true) (ha : a < n) (v : Byte) :
    (m.enter a v).below n = true := by
  induction m with
  | nil => simp [enter, below, ha]
  | cons c m ih =>
    obtain ⟨j, b⟩ := c
    have h' := h
    simp only [below, List.all_cons, Bool.and_eq_true] at h
    unfold enter
    split
    · simpa [below, ha] using h'
    · split
      · simpa [below, ha] using h.2
      · simpa [below, h.1] using ih h.2

/-- A write inside the buffer keeps every listed address inside the buffer. -/
theorem below_write {m : Memory} {n a : Nat} (h : m.below n = true) (ha : a < n) (v : Byte) :
    (m.write a v).below n = true := by
  unfold write
  split
  · exact below_erase h a
  · exact below_enter h ha v

theorem below_writeBlock {m : Memory} {n a : Nat} {bs : List Byte} (h : m.below n = true) (ha : a + bs.length ≤ n) :
    (m.writeBlock a bs).below n = true := by
  induction bs generalizing m a with
  | nil => exact h
  | cons b bs ih =>
    simp only [List.length_cons] at ha
    exact ih (below_write h (by omega) b) (by omega)

theorem read_of_lt {lo a : Nat} {m : Memory} (h : wfFrom lo m = true) (ha : a < lo) : m.read a = unlisted := by
  induction m generalizing lo with
  | nil => rfl
  | cons c m ih =>
    obtain ⟨j, b⟩ := c
    simp only [wfFrom, Bool.and_eq_true, decide_eq_true_eq] at h
    rw [read, if_neg (by omega)]
    exact ih h.2 (by omega)

theorem wfFrom_ext {lo lo' : Nat} {m m' : Memory} (h : wfFrom lo m = true) (h' : wfFrom lo' m' = true)
    (e : ∀ a, m.read a = m'.read a) : m = m' := by
  induction m generalizing lo lo' m' with
  | nil =>
    cases m' with
    | nil => rfl
    | cons c' m' =>
      obtain ⟨j', b'⟩ := c'
      simp only [wfFrom, Bool.and_eq_true, decide_eq_true_eq] at h'
      exact absurd (by simpa [read] using (e j').symm) h'.1.2
  | cons c m ih =>
    obtain ⟨j, b⟩ := c
    simp only [wfFrom, Bool.and_eq_true, decide_eq_true_eq] at h
    cases m' with
    | nil => exact absurd (by simpa [read] using e j) h.1.2
    | cons c' m' =>
      obtain ⟨j', b'⟩ := c'
      simp only [wfFrom, Bool.and_eq_true, decide_eq_true_eq] at h'
      have hj : j = j' := by
        rcases Nat.lt_trichotomy j j' with hlt | heq | hlt
        · have hr : read ((j', b') :: m') j = unlisted := by
            rw [read, if_neg (by omega)]; exact read_of_lt h'.2 (by omega)
          exact absurd ((by simpa [read] using (e j).trans hr) : b = unlisted) h.1.2
        · exact heq
        · have hr : read ((j, b) :: m) j' = unlisted := by
            rw [read, if_neg (by omega)]; exact read_of_lt h.2 (by omega)
          exact absurd ((by simpa [read] using (e j').symm.trans hr) : b' = unlisted) h'.1.2
      subst hj
      have hb : b = b' := by simpa [read] using e j
      have hm : m = m' := ih h.2 h'.2 fun a => by
        by_cases ha : a = j
        · subst ha; rw [read_of_lt h.2 (by omega), read_of_lt h'.2 (by omega)]
        · simpa [read, ha] using e a
      rw [hb, hm]

/-- Canonical memories with the same bytes are equal. -/
theorem wf_ext {m m' : Memory} (h : m.wf = true) (h' : m'.wf = true) (e : ∀ a, m.read a = m'.read a) : m = m' :=
  wfFrom_ext h h' e

end Sys2Proof.Machine.Memory
end

