-- ==== Sys2Proof/Laws/State.lean ====
section
/-! SUPPORT. One lemma per field per update of the state, so that no proof unfolds a record update. -/

namespace Sys2Proof.Machine.State

open Sys2Proof

variable (s : State)

@[simp] theorem setMem_cfg (v : Memory) : (s.setMem v).cfg = s.cfg := rfl
@[simp] theorem setMem_mem (v : Memory) : (s.setMem v).mem = v := rfl
@[simp] theorem setMem_pc (v : Memory) : (s.setMem v).pc = s.pc := rfl
@[simp] theorem setMem_flag (v : Memory) : (s.setMem v).flag = s.flag := rfl
@[simp] theorem setMem_sp (v : Memory) : (s.setMem v).sp = s.sp := rfl
@[simp] theorem setMem_ras (v : Memory) : (s.setMem v).ras = s.ras := rfl
@[simp] theorem setMem_rasCount (v : Memory) : (s.setMem v).rasCount = s.rasCount := rfl
@[simp] theorem setMem_state (v : Memory) : (s.setMem v).state = s.state := rfl
@[simp] theorem setMem_exitCode (v : Memory) : (s.setMem v).exitCode = s.exitCode := rfl
@[simp] theorem setMem_fault (v : Memory) : (s.setMem v).fault = s.fault := rfl
@[simp] theorem setMem_inStream (v : Memory) : (s.setMem v).inStream = s.inStream := rfl
@[simp] theorem setMem_inPos (v : Memory) : (s.setMem v).inPos = s.inPos := rfl
@[simp] theorem setMem_out (v : Memory) : (s.setMem v).out = s.out := rfl

@[simp] theorem setPc_cfg (v : Word) : (s.setPc v).cfg = s.cfg := rfl
@[simp] theorem setPc_mem (v : Word) : (s.setPc v).mem = s.mem := rfl
@[simp] theorem setPc_pc (v : Word) : (s.setPc v).pc = v := rfl
@[simp] theorem setPc_flag (v : Word) : (s.setPc v).flag = s.flag := rfl
@[simp] theorem setPc_sp (v : Word) : (s.setPc v).sp = s.sp := rfl
@[simp] theorem setPc_ras (v : Word) : (s.setPc v).ras = s.ras := rfl
@[simp] theorem setPc_rasCount (v : Word) : (s.setPc v).rasCount = s.rasCount := rfl
@[simp] theorem setPc_state (v : Word) : (s.setPc v).state = s.state := rfl
@[simp] theorem setPc_exitCode (v : Word) : (s.setPc v).exitCode = s.exitCode := rfl
@[simp] theorem setPc_fault (v : Word) : (s.setPc v).fault = s.fault := rfl
@[simp] theorem setPc_inStream (v : Word) : (s.setPc v).inStream = s.inStream := rfl
@[simp] theorem setPc_inPos (v : Word) : (s.setPc v).inPos = s.inPos := rfl
@[simp] theorem setPc_out (v : Word) : (s.setPc v).out = s.out := rfl

@[simp] theorem setFlag_cfg (v : Bool) : (s.setFlag v).cfg = s.cfg := rfl
@[simp] theorem setFlag_mem (v : Bool) : (s.setFlag v).mem = s.mem := rfl
@[simp] theorem setFlag_pc (v : Bool) : (s.setFlag v).pc = s.pc := rfl
@[simp] theorem setFlag_flag (v : Bool) : (s.setFlag v).flag = v := rfl
@[simp] theorem setFlag_sp (v : Bool) : (s.setFlag v).sp = s.sp := rfl
@[simp] theorem setFlag_ras (v : Bool) : (s.setFlag v).ras = s.ras := rfl
@[simp] theorem setFlag_rasCount (v : Bool) : (s.setFlag v).rasCount = s.rasCount := rfl
@[simp] theorem setFlag_state (v : Bool) : (s.setFlag v).state = s.state := rfl
@[simp] theorem setFlag_exitCode (v : Bool) : (s.setFlag v).exitCode = s.exitCode := rfl
@[simp] theorem setFlag_fault (v : Bool) : (s.setFlag v).fault = s.fault := rfl
@[simp] theorem setFlag_inStream (v : Bool) : (s.setFlag v).inStream = s.inStream := rfl
@[simp] theorem setFlag_inPos (v : Bool) : (s.setFlag v).inPos = s.inPos := rfl
@[simp] theorem setFlag_out (v : Bool) : (s.setFlag v).out = s.out := rfl

@[simp] theorem setSp_cfg (v : Word) : (s.setSp v).cfg = s.cfg := rfl
@[simp] theorem setSp_mem (v : Word) : (s.setSp v).mem = s.mem := rfl
@[simp] theorem setSp_pc (v : Word) : (s.setSp v).pc = s.pc := rfl
@[simp] theorem setSp_flag (v : Word) : (s.setSp v).flag = s.flag := rfl
@[simp] theorem setSp_sp (v : Word) : (s.setSp v).sp = v := rfl
@[simp] theorem setSp_ras (v : Word) : (s.setSp v).ras = s.ras := rfl
@[simp] theorem setSp_rasCount (v : Word) : (s.setSp v).rasCount = s.rasCount := rfl
@[simp] theorem setSp_state (v : Word) : (s.setSp v).state = s.state := rfl
@[simp] theorem setSp_exitCode (v : Word) : (s.setSp v).exitCode = s.exitCode := rfl
@[simp] theorem setSp_fault (v : Word) : (s.setSp v).fault = s.fault := rfl
@[simp] theorem setSp_inStream (v : Word) : (s.setSp v).inStream = s.inStream := rfl
@[simp] theorem setSp_inPos (v : Word) : (s.setSp v).inPos = s.inPos := rfl
@[simp] theorem setSp_out (v : Word) : (s.setSp v).out = s.out := rfl

@[simp] theorem setRas_cfg (v : List Word) : (s.setRas v).cfg = s.cfg := rfl
@[simp] theorem setRas_mem (v : List Word) : (s.setRas v).mem = s.mem := rfl
@[simp] theorem setRas_pc (v : List Word) : (s.setRas v).pc = s.pc := rfl
@[simp] theorem setRas_flag (v : List Word) : (s.setRas v).flag = s.flag := rfl
@[simp] theorem setRas_sp (v : List Word) : (s.setRas v).sp = s.sp := rfl
@[simp] theorem setRas_ras (v : List Word) : (s.setRas v).ras = v := rfl
@[simp] theorem setRas_rasCount (v : List Word) : (s.setRas v).rasCount = s.rasCount := rfl
@[simp] theorem setRas_state (v : List Word) : (s.setRas v).state = s.state := rfl
@[simp] theorem setRas_exitCode (v : List Word) : (s.setRas v).exitCode = s.exitCode := rfl
@[simp] theorem setRas_fault (v : List Word) : (s.setRas v).fault = s.fault := rfl
@[simp] theorem setRas_inStream (v : List Word) : (s.setRas v).inStream = s.inStream := rfl
@[simp] theorem setRas_inPos (v : List Word) : (s.setRas v).inPos = s.inPos := rfl
@[simp] theorem setRas_out (v : List Word) : (s.setRas v).out = s.out := rfl

@[simp] theorem setRasCount_cfg (v : Nat) : (s.setRasCount v).cfg = s.cfg := rfl
@[simp] theorem setRasCount_mem (v : Nat) : (s.setRasCount v).mem = s.mem := rfl
@[simp] theorem setRasCount_pc (v : Nat) : (s.setRasCount v).pc = s.pc := rfl
@[simp] theorem setRasCount_flag (v : Nat) : (s.setRasCount v).flag = s.flag := rfl
@[simp] theorem setRasCount_sp (v : Nat) : (s.setRasCount v).sp = s.sp := rfl
@[simp] theorem setRasCount_ras (v : Nat) : (s.setRasCount v).ras = s.ras := rfl
@[simp] theorem setRasCount_rasCount (v : Nat) : (s.setRasCount v).rasCount = v := rfl
@[simp] theorem setRasCount_state (v : Nat) : (s.setRasCount v).state = s.state := rfl
@[simp] theorem setRasCount_exitCode (v : Nat) : (s.setRasCount v).exitCode = s.exitCode := rfl
@[simp] theorem setRasCount_fault (v : Nat) : (s.setRasCount v).fault = s.fault := rfl
@[simp] theorem setRasCount_inStream (v : Nat) : (s.setRasCount v).inStream = s.inStream := rfl
@[simp] theorem setRasCount_inPos (v : Nat) : (s.setRasCount v).inPos = s.inPos := rfl
@[simp] theorem setRasCount_out (v : Nat) : (s.setRasCount v).out = s.out := rfl

@[simp] theorem setState_cfg (v : EngineState) : (s.setState v).cfg = s.cfg := rfl
@[simp] theorem setState_mem (v : EngineState) : (s.setState v).mem = s.mem := rfl
@[simp] theorem setState_pc (v : EngineState) : (s.setState v).pc = s.pc := rfl
@[simp] theorem setState_flag (v : EngineState) : (s.setState v).flag = s.flag := rfl
@[simp] theorem setState_sp (v : EngineState) : (s.setState v).sp = s.sp := rfl
@[simp] theorem setState_ras (v : EngineState) : (s.setState v).ras = s.ras := rfl
@[simp] theorem setState_rasCount (v : EngineState) : (s.setState v).rasCount = s.rasCount := rfl
@[simp] theorem setState_state (v : EngineState) : (s.setState v).state = v := rfl
@[simp] theorem setState_exitCode (v : EngineState) : (s.setState v).exitCode = s.exitCode := rfl
@[simp] theorem setState_fault (v : EngineState) : (s.setState v).fault = s.fault := rfl
@[simp] theorem setState_inStream (v : EngineState) : (s.setState v).inStream = s.inStream := rfl
@[simp] theorem setState_inPos (v : EngineState) : (s.setState v).inPos = s.inPos := rfl
@[simp] theorem setState_out (v : EngineState) : (s.setState v).out = s.out := rfl

@[simp] theorem setExitCode_cfg (v : Byte) : (s.setExitCode v).cfg = s.cfg := rfl
@[simp] theorem setExitCode_mem (v : Byte) : (s.setExitCode v).mem = s.mem := rfl
@[simp] theorem setExitCode_pc (v : Byte) : (s.setExitCode v).pc = s.pc := rfl
@[simp] theorem setExitCode_flag (v : Byte) : (s.setExitCode v).flag = s.flag := rfl
@[simp] theorem setExitCode_sp (v : Byte) : (s.setExitCode v).sp = s.sp := rfl
@[simp] theorem setExitCode_ras (v : Byte) : (s.setExitCode v).ras = s.ras := rfl
@[simp] theorem setExitCode_rasCount (v : Byte) : (s.setExitCode v).rasCount = s.rasCount := rfl
@[simp] theorem setExitCode_state (v : Byte) : (s.setExitCode v).state = s.state := rfl
@[simp] theorem setExitCode_exitCode (v : Byte) : (s.setExitCode v).exitCode = v := rfl
@[simp] theorem setExitCode_fault (v : Byte) : (s.setExitCode v).fault = s.fault := rfl
@[simp] theorem setExitCode_inStream (v : Byte) : (s.setExitCode v).inStream = s.inStream := rfl
@[simp] theorem setExitCode_inPos (v : Byte) : (s.setExitCode v).inPos = s.inPos := rfl
@[simp] theorem setExitCode_out (v : Byte) : (s.setExitCode v).out = s.out := rfl

@[simp] theorem setFault_cfg (v : FaultRecord) : (s.setFault v).cfg = s.cfg := rfl
@[simp] theorem setFault_mem (v : FaultRecord) : (s.setFault v).mem = s.mem := rfl
@[simp] theorem setFault_pc (v : FaultRecord) : (s.setFault v).pc = s.pc := rfl
@[simp] theorem setFault_flag (v : FaultRecord) : (s.setFault v).flag = s.flag := rfl
@[simp] theorem setFault_sp (v : FaultRecord) : (s.setFault v).sp = s.sp := rfl
@[simp] theorem setFault_ras (v : FaultRecord) : (s.setFault v).ras = s.ras := rfl
@[simp] theorem setFault_rasCount (v : FaultRecord) : (s.setFault v).rasCount = s.rasCount := rfl
@[simp] theorem setFault_state (v : FaultRecord) : (s.setFault v).state = s.state := rfl
@[simp] theorem setFault_exitCode (v : FaultRecord) : (s.setFault v).exitCode = s.exitCode := rfl
@[simp] theorem setFault_fault (v : FaultRecord) : (s.setFault v).fault = v := rfl
@[simp] theorem setFault_inStream (v : FaultRecord) : (s.setFault v).inStream = s.inStream := rfl
@[simp] theorem setFault_inPos (v : FaultRecord) : (s.setFault v).inPos = s.inPos := rfl
@[simp] theorem setFault_out (v : FaultRecord) : (s.setFault v).out = s.out := rfl

@[simp] theorem setInStream_cfg (v : List Byte) : (s.setInStream v).cfg = s.cfg := rfl
@[simp] theorem setInStream_mem (v : List Byte) : (s.setInStream v).mem = s.mem := rfl
@[simp] theorem setInStream_pc (v : List Byte) : (s.setInStream v).pc = s.pc := rfl
@[simp] theorem setInStream_flag (v : List Byte) : (s.setInStream v).flag = s.flag := rfl
@[simp] theorem setInStream_sp (v : List Byte) : (s.setInStream v).sp = s.sp := rfl
@[simp] theorem setInStream_ras (v : List Byte) : (s.setInStream v).ras = s.ras := rfl
@[simp] theorem setInStream_rasCount (v : List Byte) : (s.setInStream v).rasCount = s.rasCount := rfl
@[simp] theorem setInStream_state (v : List Byte) : (s.setInStream v).state = s.state := rfl
@[simp] theorem setInStream_exitCode (v : List Byte) : (s.setInStream v).exitCode = s.exitCode := rfl
@[simp] theorem setInStream_fault (v : List Byte) : (s.setInStream v).fault = s.fault := rfl
@[simp] theorem setInStream_inStream (v : List Byte) : (s.setInStream v).inStream = v := rfl
@[simp] theorem setInStream_inPos (v : List Byte) : (s.setInStream v).inPos = s.inPos := rfl
@[simp] theorem setInStream_out (v : List Byte) : (s.setInStream v).out = s.out := rfl

@[simp] theorem setInPos_cfg (v : Nat) : (s.setInPos v).cfg = s.cfg := rfl
@[simp] theorem setInPos_mem (v : Nat) : (s.setInPos v).mem = s.mem := rfl
@[simp] theorem setInPos_pc (v : Nat) : (s.setInPos v).pc = s.pc := rfl
@[simp] theorem setInPos_flag (v : Nat) : (s.setInPos v).flag = s.flag := rfl
@[simp] theorem setInPos_sp (v : Nat) : (s.setInPos v).sp = s.sp := rfl
@[simp] theorem setInPos_ras (v : Nat) : (s.setInPos v).ras = s.ras := rfl
@[simp] theorem setInPos_rasCount (v : Nat) : (s.setInPos v).rasCount = s.rasCount := rfl
@[simp] theorem setInPos_state (v : Nat) : (s.setInPos v).state = s.state := rfl
@[simp] theorem setInPos_exitCode (v : Nat) : (s.setInPos v).exitCode = s.exitCode := rfl
@[simp] theorem setInPos_fault (v : Nat) : (s.setInPos v).fault = s.fault := rfl
@[simp] theorem setInPos_inStream (v : Nat) : (s.setInPos v).inStream = s.inStream := rfl
@[simp] theorem setInPos_inPos (v : Nat) : (s.setInPos v).inPos = v := rfl
@[simp] theorem setInPos_out (v : Nat) : (s.setInPos v).out = s.out := rfl

@[simp] theorem setOut_cfg (v : List Byte) : (s.setOut v).cfg = s.cfg := rfl
@[simp] theorem setOut_mem (v : List Byte) : (s.setOut v).mem = s.mem := rfl
@[simp] theorem setOut_pc (v : List Byte) : (s.setOut v).pc = s.pc := rfl
@[simp] theorem setOut_flag (v : List Byte) : (s.setOut v).flag = s.flag := rfl
@[simp] theorem setOut_sp (v : List Byte) : (s.setOut v).sp = s.sp := rfl
@[simp] theorem setOut_ras (v : List Byte) : (s.setOut v).ras = s.ras := rfl
@[simp] theorem setOut_rasCount (v : List Byte) : (s.setOut v).rasCount = s.rasCount := rfl
@[simp] theorem setOut_state (v : List Byte) : (s.setOut v).state = s.state := rfl
@[simp] theorem setOut_exitCode (v : List Byte) : (s.setOut v).exitCode = s.exitCode := rfl
@[simp] theorem setOut_fault (v : List Byte) : (s.setOut v).fault = s.fault := rfl
@[simp] theorem setOut_inStream (v : List Byte) : (s.setOut v).inStream = s.inStream := rfl
@[simp] theorem setOut_inPos (v : List Byte) : (s.setOut v).inPos = s.inPos := rfl
@[simp] theorem setOut_out (v : List Byte) : (s.setOut v).out = v := rfl

/-! ### Stores of bytes, and completion, change memory (and `pc`) only -/

@[simp] theorem setByte_cfg (a : Nat) (v : Byte) : (s.setByte a v).cfg = s.cfg := rfl
theorem setByte_mem (a : Nat) (v : Byte) : (s.setByte a v).mem = s.mem.write a v := rfl
@[simp] theorem setByte_pc (a : Nat) (v : Byte) : (s.setByte a v).pc = s.pc := rfl
@[simp] theorem setByte_flag (a : Nat) (v : Byte) : (s.setByte a v).flag = s.flag := rfl
@[simp] theorem setByte_sp (a : Nat) (v : Byte) : (s.setByte a v).sp = s.sp := rfl
@[simp] theorem setByte_ras (a : Nat) (v : Byte) : (s.setByte a v).ras = s.ras := rfl
@[simp] theorem setByte_rasCount (a : Nat) (v : Byte) : (s.setByte a v).rasCount = s.rasCount := rfl
@[simp] theorem setByte_state (a : Nat) (v : Byte) : (s.setByte a v).state = s.state := rfl
@[simp] theorem setByte_exitCode (a : Nat) (v : Byte) : (s.setByte a v).exitCode = s.exitCode := rfl
@[simp] theorem setByte_fault (a : Nat) (v : Byte) : (s.setByte a v).fault = s.fault := rfl
@[simp] theorem setByte_inStream (a : Nat) (v : Byte) : (s.setByte a v).inStream = s.inStream := rfl
@[simp] theorem setByte_inPos (a : Nat) (v : Byte) : (s.setByte a v).inPos = s.inPos := rfl
@[simp] theorem setByte_out (a : Nat) (v : Byte) : (s.setByte a v).out = s.out := rfl
@[simp] theorem writeN_cfg (a n : Nat) (v : Word) : (s.writeN a n v).cfg = s.cfg := by
  unfold writeN; split <;> rfl
@[simp] theorem writeN_pc (a n : Nat) (v : Word) : (s.writeN a n v).pc = s.pc := by
  unfold writeN; split <;> rfl
@[simp] theorem writeN_flag (a n : Nat) (v : Word) : (s.writeN a n v).flag = s.flag := by
  unfold writeN; split <;> rfl
@[simp] theorem writeN_sp (a n : Nat) (v : Word) : (s.writeN a n v).sp = s.sp := by
  unfold writeN; split <;> rfl
@[simp] theorem writeN_ras (a n : Nat) (v : Word) : (s.writeN a n v).ras = s.ras := by
  unfold writeN; split <;> rfl
@[simp] theorem writeN_rasCount (a n : Nat) (v : Word) : (s.writeN a n v).rasCount = s.rasCount := by
  unfold writeN; split <;> rfl
@[simp] theorem writeN_state (a n : Nat) (v : Word) : (s.writeN a n v).state = s.state := by
  unfold writeN; split <;> rfl
@[simp] theorem writeN_exitCode (a n : Nat) (v : Word) : (s.writeN a n v).exitCode = s.exitCode := by
  unfold writeN; split <;> rfl
@[simp] theorem writeN_fault (a n : Nat) (v : Word) : (s.writeN a n v).fault = s.fault := by
  unfold writeN; split <;> rfl
@[simp] theorem writeN_inStream (a n : Nat) (v : Word) : (s.writeN a n v).inStream = s.inStream := by
  unfold writeN; split <;> rfl
@[simp] theorem writeN_inPos (a n : Nat) (v : Word) : (s.writeN a n v).inPos = s.inPos := by
  unfold writeN; split <;> rfl
@[simp] theorem writeN_out (a n : Nat) (v : Word) : (s.writeN a n v).out = s.out := by
  unfold writeN; split <;> rfl
@[simp] theorem writeReg_cfg (r : Byte) (v : Word) : (s.writeReg r v).cfg = s.cfg := writeN_cfg _ _ _ _
@[simp] theorem writeReg_pc (r : Byte) (v : Word) : (s.writeReg r v).pc = s.pc := writeN_pc _ _ _ _
@[simp] theorem writeReg_flag (r : Byte) (v : Word) : (s.writeReg r v).flag = s.flag := writeN_flag _ _ _ _
@[simp] theorem writeReg_sp (r : Byte) (v : Word) : (s.writeReg r v).sp = s.sp := writeN_sp _ _ _ _
@[simp] theorem writeReg_ras (r : Byte) (v : Word) : (s.writeReg r v).ras = s.ras := writeN_ras _ _ _ _
@[simp] theorem writeReg_rasCount (r : Byte) (v : Word) : (s.writeReg r v).rasCount = s.rasCount := writeN_rasCount _ _ _ _
@[simp] theorem writeReg_state (r : Byte) (v : Word) : (s.writeReg r v).state = s.state := writeN_state _ _ _ _
@[simp] theorem writeReg_exitCode (r : Byte) (v : Word) : (s.writeReg r v).exitCode = s.exitCode := writeN_exitCode _ _ _ _
@[simp] theorem writeReg_fault (r : Byte) (v : Word) : (s.writeReg r v).fault = s.fault := writeN_fault _ _ _ _
@[simp] theorem writeReg_inStream (r : Byte) (v : Word) : (s.writeReg r v).inStream = s.inStream := writeN_inStream _ _ _ _
@[simp] theorem writeReg_inPos (r : Byte) (v : Word) : (s.writeReg r v).inPos = s.inPos := writeN_inPos _ _ _ _
@[simp] theorem writeReg_out (r : Byte) (v : Word) : (s.writeReg r v).out = s.out := writeN_out _ _ _ _
@[simp] theorem complete_cfg (target : Word) : (s.complete target).cfg = s.cfg := writeN_cfg _ _ _ _
@[simp] theorem complete_pc (target : Word) : (s.complete target).pc = target := writeN_pc _ _ _ _
@[simp] theorem complete_flag (target : Word) : (s.complete target).flag = s.flag := writeN_flag _ _ _ _
@[simp] theorem complete_sp (target : Word) : (s.complete target).sp = s.sp := writeN_sp _ _ _ _
@[simp] theorem complete_ras (target : Word) : (s.complete target).ras = s.ras := writeN_ras _ _ _ _
@[simp] theorem complete_rasCount (target : Word) : (s.complete target).rasCount = s.rasCount := writeN_rasCount _ _ _ _
@[simp] theorem complete_state (target : Word) : (s.complete target).state = s.state := writeN_state _ _ _ _
@[simp] theorem complete_exitCode (target : Word) : (s.complete target).exitCode = s.exitCode := writeN_exitCode _ _ _ _
@[simp] theorem complete_fault (target : Word) : (s.complete target).fault = s.fault := writeN_fault _ _ _ _
@[simp] theorem complete_inStream (target : Word) : (s.complete target).inStream = s.inStream := writeN_inStream _ _ _ _
@[simp] theorem complete_inPos (target : Word) : (s.complete target).inPos = s.inPos := writeN_inPos _ _ _ _
@[simp] theorem complete_out (target : Word) : (s.complete target).out = s.out := writeN_out _ _ _ _
@[simp] theorem advance_cfg : s.advance.cfg = s.cfg := complete_cfg _ _
@[simp] theorem advance_pc : s.advance.pc = s.pc + 4 := complete_pc _ _
@[simp] theorem advance_flag : s.advance.flag = s.flag := complete_flag _ _
@[simp] theorem advance_sp : s.advance.sp = s.sp := complete_sp _ _
@[simp] theorem advance_ras : s.advance.ras = s.ras := complete_ras _ _
@[simp] theorem advance_rasCount : s.advance.rasCount = s.rasCount := complete_rasCount _ _
@[simp] theorem advance_state : s.advance.state = s.state := complete_state _ _
@[simp] theorem advance_exitCode : s.advance.exitCode = s.exitCode := complete_exitCode _ _
@[simp] theorem advance_fault : s.advance.fault = s.fault := complete_fault _ _
@[simp] theorem advance_inStream : s.advance.inStream = s.inStream := complete_inStream _ _
@[simp] theorem advance_inPos : s.advance.inPos = s.inPos := complete_inPos _ _
@[simp] theorem advance_out : s.advance.out = s.out := complete_out _ _
@[simp] theorem pushValue_cfg (n : Nat) (v : Word) : (s.pushValue n v).cfg = s.cfg := writeN_cfg _ _ _ _
@[simp] theorem pushValue_pc (n : Nat) (v : Word) : (s.pushValue n v).pc = s.pc := writeN_pc _ _ _ _
@[simp] theorem pushValue_flag (n : Nat) (v : Word) : (s.pushValue n v).flag = s.flag := writeN_flag _ _ _ _
@[simp] theorem pushValue_sp (n : Nat) (v : Word) : (s.pushValue n v).sp = s.sp - BitVec.ofNat 16 n := rfl
@[simp] theorem pushValue_ras (n : Nat) (v : Word) : (s.pushValue n v).ras = s.ras := writeN_ras _ _ _ _
@[simp] theorem pushValue_rasCount (n : Nat) (v : Word) : (s.pushValue n v).rasCount = s.rasCount := writeN_rasCount _ _ _ _
@[simp] theorem pushValue_state (n : Nat) (v : Word) : (s.pushValue n v).state = s.state := writeN_state _ _ _ _
@[simp] theorem pushValue_exitCode (n : Nat) (v : Word) : (s.pushValue n v).exitCode = s.exitCode := writeN_exitCode _ _ _ _
@[simp] theorem pushValue_fault (n : Nat) (v : Word) : (s.pushValue n v).fault = s.fault := writeN_fault _ _ _ _
@[simp] theorem pushValue_inStream (n : Nat) (v : Word) : (s.pushValue n v).inStream = s.inStream := writeN_inStream _ _ _ _
@[simp] theorem pushValue_inPos (n : Nat) (v : Word) : (s.pushValue n v).inPos = s.inPos := writeN_inPos _ _ _ _
@[simp] theorem pushValue_out (n : Nat) (v : Word) : (s.pushValue n v).out = s.out := writeN_out _ _ _ _

/-! ### Taking a fault changes the record and the engine state only (rule R245) -/

@[simp] theorem takeFault_cfg (b : Record) (k : FaultKind) (info : Word) :
    (s.takeFault b k info).cfg = s.cfg := rfl
@[simp] theorem takeFault_mem (b : Record) (k : FaultKind) (info : Word) :
    (s.takeFault b k info).mem = s.mem := rfl
@[simp] theorem takeFault_pc (b : Record) (k : FaultKind) (info : Word) :
    (s.takeFault b k info).pc = s.pc := rfl
@[simp] theorem takeFault_flag (b : Record) (k : FaultKind) (info : Word) :
    (s.takeFault b k info).flag = s.flag := rfl
@[simp] theorem takeFault_sp (b : Record) (k : FaultKind) (info : Word) :
    (s.takeFault b k info).sp = s.sp := rfl
@[simp] theorem takeFault_ras (b : Record) (k : FaultKind) (info : Word) :
    (s.takeFault b k info).ras = s.ras := rfl
@[simp] theorem takeFault_rasCount (b : Record) (k : FaultKind) (info : Word) :
    (s.takeFault b k info).rasCount = s.rasCount := rfl
@[simp] theorem takeFault_state (b : Record) (k : FaultKind) (info : Word) :
    (s.takeFault b k info).state = .faulted := rfl
@[simp] theorem takeFault_exitCode (b : Record) (k : FaultKind) (info : Word) :
    (s.takeFault b k info).exitCode = s.exitCode := rfl
@[simp] theorem takeFault_fault (b : Record) (k : FaultKind) (info : Word) :
    (s.takeFault b k info).fault = ⟨k, s.pc, b.opc, b.op0, b.op1, b.op2, info⟩ := rfl
@[simp] theorem takeFault_inStream (b : Record) (k : FaultKind) (info : Word) :
    (s.takeFault b k info).inStream = s.inStream := rfl
@[simp] theorem takeFault_inPos (b : Record) (k : FaultKind) (info : Word) :
    (s.takeFault b k info).inPos = s.inPos := rfl
@[simp] theorem takeFault_out (b : Record) (k : FaultKind) (info : Word) :
    (s.takeFault b k info).out = s.out := rfl

/-! ### Bytes, values and registers are read from memory and the configuration alone -/

@[simp] theorem byte_setPc (v : Word) (a : Nat) : (s.setPc v).byte a = s.byte a := rfl
@[simp] theorem readN_setPc (v : Word) (a n : Nat) : (s.setPc v).readN a n = s.readN a n := rfl
@[simp] theorem readReg_setPc (v : Word) (r : Byte) : (s.setPc v).readReg r = s.readReg r := rfl
@[simp] theorem byte_setFlag (v : Bool) (a : Nat) : (s.setFlag v).byte a = s.byte a := rfl
@[simp] theorem readN_setFlag (v : Bool) (a n : Nat) : (s.setFlag v).readN a n = s.readN a n := rfl
@[simp] theorem readReg_setFlag (v : Bool) (r : Byte) : (s.setFlag v).readReg r = s.readReg r := rfl
@[simp] theorem byte_setSp (v : Word) (a : Nat) : (s.setSp v).byte a = s.byte a := rfl
@[simp] theorem readN_setSp (v : Word) (a n : Nat) : (s.setSp v).readN a n = s.readN a n := rfl
@[simp] theorem readReg_setSp (v : Word) (r : Byte) : (s.setSp v).readReg r = s.readReg r := rfl
@[simp] theorem byte_setRas (v : List Word) (a : Nat) : (s.setRas v).byte a = s.byte a := rfl
@[simp] theorem readN_setRas (v : List Word) (a n : Nat) : (s.setRas v).readN a n = s.readN a n := rfl
@[simp] theorem readReg_setRas (v : List Word) (r : Byte) : (s.setRas v).readReg r = s.readReg r := rfl
@[simp] theorem byte_setRasCount (v : Nat) (a : Nat) : (s.setRasCount v).byte a = s.byte a := rfl
@[simp] theorem readN_setRasCount (v : Nat) (a n : Nat) : (s.setRasCount v).readN a n = s.readN a n := rfl
@[simp] theorem readReg_setRasCount (v : Nat) (r : Byte) : (s.setRasCount v).readReg r = s.readReg r := rfl
@[simp] theorem byte_setState (v : EngineState) (a : Nat) : (s.setState v).byte a = s.byte a := rfl
@[simp] theorem readN_setState (v : EngineState) (a n : Nat) : (s.setState v).readN a n = s.readN a n := rfl
@[simp] theorem readReg_setState (v : EngineState) (r : Byte) : (s.setState v).readReg r = s.readReg r := rfl
@[simp] theorem byte_setExitCode (v : Byte) (a : Nat) : (s.setExitCode v).byte a = s.byte a := rfl
@[simp] theorem readN_setExitCode (v : Byte) (a n : Nat) : (s.setExitCode v).readN a n = s.readN a n := rfl
@[simp] theorem readReg_setExitCode (v : Byte) (r : Byte) : (s.setExitCode v).readReg r = s.readReg r := rfl
@[simp] theorem byte_setFault (v : FaultRecord) (a : Nat) : (s.setFault v).byte a = s.byte a := rfl
@[simp] theorem readN_setFault (v : FaultRecord) (a n : Nat) : (s.setFault v).readN a n = s.readN a n := rfl
@[simp] theorem readReg_setFault (v : FaultRecord) (r : Byte) : (s.setFault v).readReg r = s.readReg r := rfl
@[simp] theorem byte_setInStream (v : List Byte) (a : Nat) : (s.setInStream v).byte a = s.byte a := rfl
@[simp] theorem readN_setInStream (v : List Byte) (a n : Nat) : (s.setInStream v).readN a n = s.readN a n := rfl
@[simp] theorem readReg_setInStream (v : List Byte) (r : Byte) : (s.setInStream v).readReg r = s.readReg r := rfl
@[simp] theorem byte_setInPos (v : Nat) (a : Nat) : (s.setInPos v).byte a = s.byte a := rfl
@[simp] theorem readN_setInPos (v : Nat) (a n : Nat) : (s.setInPos v).readN a n = s.readN a n := rfl
@[simp] theorem readReg_setInPos (v : Nat) (r : Byte) : (s.setInPos v).readReg r = s.readReg r := rfl
@[simp] theorem byte_setOut (v : List Byte) (a : Nat) : (s.setOut v).byte a = s.byte a := rfl
@[simp] theorem readN_setOut (v : List Byte) (a n : Nat) : (s.setOut v).readN a n = s.readN a n := rfl
@[simp] theorem readReg_setOut (v : List Byte) (r : Byte) : (s.setOut v).readReg r = s.readReg r := rfl
@[simp] theorem byte_takeFault (b : Record) (k : FaultKind) (info : Word) (a : Nat) :
    (s.takeFault b k info).byte a = s.byte a := rfl
@[simp] theorem readN_takeFault (b : Record) (k : FaultKind) (info : Word) (a n : Nat) :
    (s.takeFault b k info).readN a n = s.readN a n := rfl
@[simp] theorem readReg_takeFault (b : Record) (k : FaultKind) (info : Word) (r : Byte) :
    (s.takeFault b k info).readReg r = s.readReg r := rfl

end Sys2Proof.Machine.State
end

