-- ==== Sys2Proof/Laws/Ops.lean ====
section
/-! SUPPORT. For each shared operation, what it does, said once: the bytes after a store and after completion, the canonical form kept,
where registers lie, and for each operand form the cases it can end in. -/

namespace Sys2Proof.Machine

open Sys2Proof

/-! ### Where segments and registers lie -/

/-- Where the segments of a legal configuration lie (rule R5). -/
theorem legal_bounds {c : Config} (h : c.Legal) :
    50 ≤ c.stackBase ∧ c.stackBase + 1 ≤ c.stackTop ∧ c.stackTop = c.progBase ∧
      c.progBase + c.progSize ≤ c.memSize ∧ c.memSize ≤ 65536 ∧ 4 ≤ c.progSize := by
  obtain ⟨h1, h2, h3, h4, -, -⟩ := h
  refine ⟨?_, ?_, rfl, ?_, h4, h3⟩ <;>
    simp only [Config.stackBase, Config.stackTop, Config.progBase, Config.memSize, Config.c16Base, Config.c8Base,
      Config.heapBase, Config.regBase] <;> omega

theorem registerWidth_eq (r : Byte) : registerWidth r = 1 ∨ registerWidth r = 2 := by
  unfold registerWidth; split <;> simp

theorem registerWidth_of_le {r : Byte} (h : r.toNat ≤ 15) : registerWidth r = 1 := if_pos h

theorem registerWidth_of_gt {r : Byte} (h : ¬ r.toNat ≤ 15) : registerWidth r = 2 := if_neg h

theorem registerLegal_iff {r : Byte} : registerLegal r = true ↔ r.toNat < 32 := by simp [registerLegal]

/-- A register's bytes are among the first 48 of the buffer. -/
theorem registerAddress_add_width_le (c : Config) {r : Byte} (h : r.toNat < 32) :
    registerAddress c r + registerWidth r ≤ 48 := by
  unfold registerAddress registerWidth Config.regBase
  split <;> omega

/-- Different registers have disjoint bytes. -/
theorem registers_disjoint (c : Config) {q r : Byte} (hq : q.toNat < 32) (hr : r.toNat < 32) (h : q ≠ r) :
    registerAddress c q + registerWidth q ≤ registerAddress c r ∨
      registerAddress c r + registerWidth r ≤ registerAddress c q := by
  have hne : q.toNat ≠ r.toNat := fun e => h (BitVec.eq_of_toNat_eq e)
  unfold registerAddress registerWidth Config.regBase
  split <;> split <;> omega

namespace State

variable (s : State)

/-! ### Bytes after a store -/

theorem byte_setByte (a k : Nat) (v : Byte) : (s.setByte a v).byte k = if k = a then v else s.byte k :=
  Memory.read_write s.mem a k v

theorem byte_writeN_one (a k : Nat) (v : Word) :
    (s.writeN a 1 v).byte k = if k = a then loByte v else s.byte k := by
  simp [writeN, byte_setByte]

theorem byte_writeN_two (a k : Nat) (v : Word) :
    (s.writeN a 2 v).byte k = if k = a + 1 then loByte v else if k = a then hiByte v else s.byte k := by
  simp [writeN, byte_setByte]

/-- A store touches no byte outside its range. -/
theorem byte_writeN_other {a n k : Nat} (v : Word) (hn : n = 1 ∨ n = 2) (h : k < a ∨ a + n ≤ k) :
    (s.writeN a n v).byte k = s.byte k := by
  rcases hn with rfl | rfl
  · rw [byte_writeN_one, if_neg (by omega)]
  · rw [byte_writeN_two, if_neg (by omega), if_neg (by omega)]

/-- A value read sees only the bytes of its range. -/
theorem readN_congr {s t : State} {a n : Nat} (hn : n = 1 ∨ n = 2)
    (h : ∀ k, a ≤ k → k < a + n → t.byte k = s.byte k) : t.readN a n = s.readN a n := by
  rcases hn with rfl | rfl
  · simp [readN, h a (by omega) (by omega)]
  · simp [readN, h a (by omega) (by omega), h (a + 1) (by omega) (by omega)]

/-- What a store of `n` bytes leaves to be read there: the low `8n` bits of the value. -/
theorem readN_writeN (a : Nat) {n : Nat} (v : Word) (hn : n = 1 ∨ n = 2) :
    (s.writeN a n v).readN a n = if n = 1 then (loByte v).setWidth 16 else v := by
  rcases hn with rfl | rfl
  · simp [readN, byte_writeN_one]
  · simp [readN, byte_writeN_two]

/-! ### The canonical form -/

theorem setByte_memory {s : State} {n a : Nat} {v : Byte} (h : s.mem.wf = true ∧ s.mem.below n = true) (ha : a < n) :
    (s.setByte a v).mem.wf = true ∧ (s.setByte a v).mem.below n = true :=
  ⟨Memory.wf_write h.1 a v, Memory.below_write h.2 ha v⟩

/-- A store inside the buffer keeps the memory canonical and inside the buffer. -/
theorem writeN_memory {s : State} {n a w : Nat} {v : Word} (hw : w = 1 ∨ w = 2)
    (h : s.mem.wf = true ∧ s.mem.below n = true) (ha : a + w ≤ n) :
    (s.writeN a w v).mem.wf = true ∧ (s.writeN a w v).mem.below n = true := by
  rcases hw with rfl | rfl
  · simpa [writeN] using setByte_memory (v := loByte v) h (by omega : a < n)
  · simpa [writeN] using
      setByte_memory (v := loByte v) (setByte_memory (v := hiByte v) h (by omega : a < n)) (by omega : a + 1 < n)

/-! ### Completion -/

/-- After completion the mirror holds the target, and every other byte is as before. -/
theorem byte_complete (target : Word) (k : Nat) :
    (s.complete target).byte k =
      if k = s.mirrorAddress + 1 then loByte target else if k = s.mirrorAddress then hiByte target else s.byte k :=
  byte_writeN_two (s.setPc target) s.mirrorAddress k target

theorem readN_mirror_complete (target : Word) : (s.complete target).readN s.mirrorAddress 2 = target := by
  have := readN_writeN (s.setPc target) s.mirrorAddress target (Or.inr rfl : (2 : Nat) = 1 ∨ 2 = 2)
  simpa [complete] using this

/-- Completion changes no value that lies off the mirror. -/
theorem readN_complete (target : Word) {a n : Nat} (hn : n = 1 ∨ n = 2)
    (h : a + n ≤ s.mirrorAddress ∨ s.mirrorAddress + 2 ≤ a) : (s.complete target).readN a n = s.readN a n :=
  readN_congr hn fun k h1 h2 => by rw [byte_complete, if_neg (by omega), if_neg (by omega)]

/-- Completion changes no register. -/
theorem readReg_complete (target : Word) {q : Byte} (hq : q.toNat < 32) : (s.complete target).readReg q = s.readReg q := by
  have h := registerAddress_add_width_le s.cfg hq
  have := readN_complete s target (registerWidth_eq q) (Or.inl (by simp only [mirrorAddress, Config.regBase]; omega)
    : registerAddress s.cfg q + registerWidth q ≤ s.mirrorAddress ∨ s.mirrorAddress + 2 ≤ registerAddress s.cfg q)
  simpa [readReg] using this

theorem complete_memory {s : State} {n : Nat} {target : Word} (h : s.mem.wf = true ∧ s.mem.below n = true) (hn : 50 ≤ n) :
    (s.complete target).mem.wf = true ∧ (s.complete target).mem.below n = true :=
  writeN_memory (s := s.setPc target) (Or.inr rfl) h (by simp only [mirrorAddress, Config.regBase]; omega)

/-! ### Registers -/

/-- A register read after its write: the low `8 * W(r)` bits of the value. -/
theorem readReg_writeReg (r : Byte) (v : Word) :
    (s.writeReg r v).readReg r = if registerWidth r = 1 then (loByte v).setWidth 16 else v := by
  simpa [readReg, writeReg] using readN_writeN s (registerAddress s.cfg r) v (registerWidth_eq r)

/-- A register write touches no byte outside the register. -/
theorem byte_writeReg_other {r : Byte} (v : Word) {k : Nat}
    (h : k < registerAddress s.cfg r ∨ registerAddress s.cfg r + registerWidth r ≤ k) :
    (s.writeReg r v).byte k = s.byte k := byte_writeN_other s v (registerWidth_eq r) h

/-! ### What the operand forms can end in -/

/-- Either the index is legal and the rest runs, or the fault OutOfBounds with the index. -/
theorem withRegister_cases (b : Record) (r : Byte) (k : State) :
    (r.toNat < 32 ∧ s.withRegister b r k = k) ∨
      (32 ≤ r.toNat ∧ s.withRegister b r k = s.takeFault b .outOfBounds (r.setWidth 16)) := by
  unfold withRegister
  by_cases h : r.toNat < 32
  · exact .inl ⟨h, if_pos (registerLegal_iff.2 h)⟩
  · exact .inr ⟨by omega, if_neg (by simpa [registerLegal] using h)⟩

/-- Either the access is in the buffer and the rest gets its value, or the fault OutOfBounds with the address. -/
theorem withMemory_cases (b : Record) (a : Word) (n : Nat) (k : Word → State) :
    (a.toNat + n ≤ s.cfg.memSize ∧ s.withMemory b a n k = k (s.readN a.toNat n)) ∨
      (s.cfg.memSize < a.toNat + n ∧ s.withMemory b a n k = s.takeFault b .outOfBounds a) := by
  unfold withMemory memRead inBuffer
  by_cases h : a.toNat + n ≤ s.cfg.memSize
  · exact .inl ⟨h, by simp [h]⟩
  · exact .inr ⟨by omega, by simp [h]⟩

/-- The three ends of a register-and-memory-operand form, in the order of the checks. -/
theorem withOperands_cases (b : Record) (r : Byte) (a : Word) (k : Word → Word → State) :
    (r.toNat < 32 ∧ a.toNat + 2 ≤ s.cfg.memSize ∧ s.withOperands b r a k = k (s.readReg r) (s.readN a.toNat 2)) ∨
    (32 ≤ r.toNat ∧ s.withOperands b r a k = s.takeFault b .outOfBounds (r.setWidth 16)) ∨
    (r.toNat < 32 ∧ s.cfg.memSize < a.toNat + 2 ∧ s.withOperands b r a k = s.takeFault b .outOfBounds a) := by
  unfold withOperands
  rcases withRegister_cases s b r (s.withMemory b a 2 fun m => k (s.readReg r) m) with ⟨hr, e⟩ | ⟨hr, e⟩
  · rcases withMemory_cases s b a 2 fun m => k (s.readReg r) m with ⟨ha, e'⟩ | ⟨ha, e'⟩
    · exact .inl ⟨hr, ha, e.trans e'⟩
    · exact .inr (.inr ⟨hr, ha, e.trans e'⟩)
  · exact .inr (.inl ⟨hr, e⟩)

/-- A store either lies in the buffer and off the program segment and is made, or is not made at all. -/
theorem memWrite_cases (a n : Nat) (v : Word) :
    (a + n ≤ s.cfg.memSize ∧ (s.cfg.progBase + s.cfg.progSize ≤ a ∨ a + n ≤ s.cfg.progBase) ∧
      s.memWrite a n v = some (s.writeN a n v)) ∨
    ((s.cfg.memSize < a + n ∨ (a < s.cfg.progBase + s.cfg.progSize ∧ s.cfg.progBase < a + n)) ∧
      s.memWrite a n v = none) := by
  unfold memWrite inBuffer meetsProgram
  by_cases h : a + n ≤ s.cfg.memSize
  · by_cases h' : a < s.cfg.progBase + s.cfg.progSize ∧ s.cfg.progBase < a + n
    · exact .inr ⟨.inr h', by simp [h, h']⟩
    · exact .inl ⟨h, by omega, by simp only [h, h', decide_true, decide_false]; simp⟩
  · exact .inr ⟨.inl (by omega), by simp [h]⟩

/-- A fetch inside the program segment reads the four bytes from PROG_BASE + pc. -/
theorem fetch_eq {s : State} (h : s.pc.toNat + 4 ≤ s.cfg.progSize) :
    s.fetch = some ⟨s.byte s.fetchAddress, s.byte (s.fetchAddress + 1), s.byte (s.fetchAddress + 2),
      s.byte (s.fetchAddress + 3)⟩ := by
  have hb : s.cfg.progBase + s.pc.toNat + 4 ≤ s.cfg.memSize := by
    simp only [Config.memSize, Config.c16Base, Config.c8Base, Config.heapBase]; omega
  simp [fetch, canFetch, h, memRead4, inBuffer, fetchAddress, hb]

/-- A fetch outside the program segment fails. -/
theorem fetch_none {s : State} (h : s.cfg.progSize < s.pc.toNat + 4) : s.fetch = none := by
  simp [fetch, canFetch, Nat.not_le.2 h]

end State

end Sys2Proof.Machine
end

