-- ==== Sys2Proof/Laws/Frames.lean ====
section
/-! SUPPORT. What a completed instruction leaves alone, said once for the shapes of Safety.lean: completion keeps registers and memory
off the mirror, a register write keeps every other register, and the mirror holds the target. -/

namespace Sys2Proof.Machine.State

open Sys2Proof

variable (s : State)

/-- Entering a fault is the state of rule R245. -/
theorem takeFault_eq_afterFault (b : Record) (k : FaultKind) (info : Word) :
    s.takeFault b k info = s.afterFault k b info := rfl

/-- A completed instruction ends at its target, and the mirror holds it. -/
theorem endsAt_complete (target : Word) : (s.complete target).EndsAt target := by
  have h := readN_mirror_complete s target
  exact ⟨by simp, by simpa only [MirrorInv, mirrorAddress, complete_cfg, complete_pc] using h⟩

theorem endsAt_advance : s.advance.EndsAt (s.pc + 4) := endsAt_complete s (s.pc + 4)

variable {s}

/-- Bytes that a body kept outside a range are kept outside it and the mirror after completion. -/
theorem sameMemoryBut_complete {u : State} {a n : Nat} (target : Word) (hc : u.cfg = s.cfg)
    (h : ∀ k, (k < a ∨ a + n ≤ k) → u.byte k = s.byte k) : s.SameMemoryBut (u.complete target) a n := by
  intro k hk h1 h2
  rw [byte_complete, if_neg, if_neg, h k hk]
  · simpa [mirrorAddress, hc] using h1
  · simpa [mirrorAddress, hc] using h2

/-- Where a body kept every byte, only the mirror changes. -/
theorem sameMemory_complete {u : State} (target : Word) (hc : u.cfg = s.cfg) (h : ∀ k, u.byte k = s.byte k) :
    s.SameMemory (u.complete target) := by
  intro k h1 h2
  rw [byte_complete, if_neg, if_neg, h k]
  · simpa [mirrorAddress, hc] using h1
  · simpa [mirrorAddress, hc] using h2

/-- Where a body kept the bytes of the register file, every register is kept. -/
theorem sameRegisters_complete {u : State} (target : Word) (hc : u.cfg = s.cfg)
    (h : ∀ k, k < 48 → u.byte k = s.byte k) : s.SameRegisters (u.complete target) := by
  intro q hq
  have := registerAddress_add_width_le s.cfg hq
  rw [readReg_complete _ _ hq]
  unfold readReg
  rw [hc]
  exact readN_congr (registerWidth_eq q) fun k _ _ => h k (by omega)

/-- A register write keeps every other register. -/
theorem readReg_writeReg_other {q r : Byte} (v : Word) (hq : q.toNat < 32) (hr : r.toNat < 32) (h : q ≠ r) :
    (s.writeReg r v).readReg q = s.readReg q := by
  have hd := registers_disjoint s.cfg hq hr h
  unfold readReg
  rw [writeReg_cfg]
  exact readN_congr (registerWidth_eq q) fun k h1 h2 => byte_writeReg_other s v (by omega)

theorem sameRegistersBut_writeReg_complete {r : Byte} (hr : r.toNat < 32) (v target : Word) :
    s.SameRegistersBut ((s.writeReg r v).complete target) r := fun q hq hne => by
  rw [readReg_complete _ _ hq, readReg_writeReg_other v hq hr hne]

theorem sameMemoryBut_writeReg_complete (r : Byte) (v target : Word) :
    s.SameMemoryBut ((s.writeReg r v).complete target) (registerAddress s.cfg r) (registerWidth r) :=
  sameMemoryBut_complete target (writeReg_cfg _ _ _) fun _ hk => byte_writeReg_other s v hk

end Sys2Proof.Machine.State
end

