-- ==== Sys2Proof/Laws/Exec.lean ====
section
/-! SUPPORT. What an instruction can do, said once: it takes a fault, or it completes a body whose effect on every field is bounded
(exec_cases); and what a step can do (step_cases). Invariants and whole-machine rules follow from these without unfolding
a meaning again. -/

namespace Sys2Proof.Machine

open Sys2Proof State

/-- What the body of an instruction, before completion at a target, may have done. -/
structure Body (i : Instr) (s u : State) (target : Word) : Prop where
  cfg : u.cfg = s.cfg
  fault : u.fault = s.fault
  inStream : u.inStream = s.inStream
  flag : isComparison i = false → u.flag = s.flag
  sp : movesCursor i = false → u.sp = s.sp
  cursor : s.cfg.Legal → s.CursorInv →
    u.CursorInv ∧ u.sp.toNat ≤ s.sp.toNat + 2 ∧ s.sp.toNat ≤ u.sp.toNat + 2
  returnStack : usesReturnStack i = false → u.ras = s.ras ∧ u.rasCount = s.rasCount
  returnStackInv : s.ReturnStackInv → u.ReturnStackInv
  engine : u.state = s.state ∧ u.exitCode = s.exitCode ∨ u.state = .halted ∧ ∃ x status, i = .halt x status
  input : u.inPos = s.inPos ∨ u.inPos = s.inPos + 1 ∧ s.inPos < s.inStream.length
  output : u.out = s.out ∨ ∃ b, u.out = s.out ++ [b]
  target : isTransfer i = false → target = s.pc + 4
  memory : s.cfg.Legal → s.CursorInv → s.MemoryInv → u.MemoryInv
  program : s.cfg.Legal → s.CursorInv → ∀ a, s.cfg.progBase ≤ a → a < s.cfg.progBase + s.cfg.progSize →
    u.byte a = s.byte a

/-- The two ends of an instruction. -/
def Ends (i : Instr) (s t : State) : Prop :=
  (∃ k info, k ≠ .none ∧ k ≠ .sizeMismatch ∧ (k = .unimplementedOpcode → ∃ x0 x1 x2, i = .sys x0 x1 x2) ∧
      t = s.takeFault (s.bytesOf i) k info) ∨
    ∃ u target, t = u.complete target ∧ Body i s u target

theorem ends_of_fault {i : Instr} {s : State} (k : FaultKind) (info : Word) (h : k ≠ .none := by decide)
    (h' : k ≠ .sizeMismatch := by decide)
    (h'' : k = .unimplementedOpcode → ∃ x0 x1 x2, i = .sys x0 x1 x2 := by nofun) :
    Ends i s (s.takeFault (s.bytesOf i) k info) := .inl ⟨k, info, h, h', h'', rfl⟩

theorem ends_of_body {i : Instr} {s u : State} {target : Word} (h : Body i s u target) : Ends i s (u.complete target) :=
  .inr ⟨u, target, rfl, h⟩

/-- A register write is a body: it stores only below the stack segment. -/
theorem memory_writeReg {s : State} {r : Byte} (hr : r.toNat < 32) (v : Word) :
    (s.cfg.Legal → s.MemoryInv → (s.writeReg r v).MemoryInv) ∧
      (s.cfg.Legal → ∀ a, s.cfg.progBase ≤ a → (s.writeReg r v).byte a = s.byte a) := by
  have h := registerAddress_add_width_le s.cfg hr
  constructor
  · intro hL hm
    obtain ⟨h1, h2, h3, h4, -, -⟩ := legal_bounds hL
    have := writeN_memory (v := v) (registerWidth_eq r) hm (by omega : registerAddress s.cfg r + registerWidth r ≤ s.cfg.memSize)
    simpa [writeReg, MemoryInv] using this
  · intro hL a ha
    obtain ⟨h1, h2, h3, -, -, -⟩ := legal_bounds hL
    exact byte_writeReg_other s v (by omega)

theorem body_writeReg {i : Instr} {s : State} {r : Byte} (hr : r.toNat < 32) (v : Word) :
    Body i s (s.writeReg r v) (s.pc + 4) where
  cfg := by simp
  fault := by simp
  inStream := by simp
  flag _ := by simp
  sp _ := by simp
  cursor _ h := ⟨by simpa [CursorInv] using h, by simp, by simp⟩
  returnStack _ := by simp
  returnStackInv h := by simpa [ReturnStackInv] using h
  engine := by simp
  input := by simp
  output := by simp
  target _ := rfl
  memory hL _ hm := (memory_writeReg hr v).1 hL hm
  program hL _ a ha _ := (memory_writeReg hr v).2 hL a ha

/-- A body that changes no memory and nothing but what it names. -/
theorem body_same {i : Instr} {s : State} {target : Word} (ht : isTransfer i = false → target = s.pc + 4) :
    Body i s s target where
  cfg := rfl
  fault := rfl
  inStream := rfl
  flag _ := rfl
  sp _ := rfl
  cursor _ h := ⟨h, by omega, by omega⟩
  returnStack _ := ⟨rfl, rfl⟩
  returnStackInv h := h
  engine := .inl ⟨rfl, rfl⟩
  input := .inl rfl
  output := .inl rfl
  target := ht
  memory _ _ hm := hm
  program _ _ _ _ _ := rfl

theorem ends_withRegister {i : Instr} {s k : State} {r : Byte} (h : r.toNat < 32 → Ends i s k) :
    Ends i s (s.withRegister (s.bytesOf i) r k) := by
  rcases withRegister_cases s (s.bytesOf i) r k with ⟨hr, e⟩ | ⟨-, e⟩ <;> rw [e]
  · exact h hr
  · exact ends_of_fault .outOfBounds _

theorem ends_withOperands {i : Instr} {s : State} {r : Byte} {a : Word} {k : Word → Word → State}
    (h : ∀ v m, r.toNat < 32 → Ends i s (k v m)) : Ends i s (s.withOperands (s.bytesOf i) r a k) := by
  rcases withOperands_cases s (s.bytesOf i) r a k with ⟨hr, -, e⟩ | ⟨-, e⟩ | ⟨-, -, e⟩ <;> rw [e]
  · exact h _ _ hr
  · exact ends_of_fault .outOfBounds _
  · exact ends_of_fault .outOfBounds _

theorem ends_accumulate {i : Instr} {s : State} {r : Byte} {a : Word} {f : Word → Word → Word} :
    Ends i s (s.accumulate (s.bytesOf i) r a f) :=
  ends_withOperands fun v m hr => by
    simpa [advance] using ends_of_body (body_writeReg hr (f v m))

theorem ends_accumulateNonzero {i : Instr} {s : State} {r : Byte} {a : Word} {f : Word → Word → Word} :
    Ends i s (s.accumulateNonzero (s.bytesOf i) r a f) :=
  ends_withOperands fun v m hr => by
    split
    · exact ends_of_fault .divideByZero _
    · simpa [advance] using ends_of_body (body_writeReg hr (f v m))

theorem ends_modifyRegister {i : Instr} {s : State} {r : Byte} {f : Word → Word} :
    Ends i s (s.modifyRegister (s.bytesOf i) r f) :=
  ends_withRegister fun hr => by
    simpa [advance] using ends_of_body (body_writeReg hr (f (s.readReg r)))

theorem ends_compareOperands {i : Instr} {s : State} {r : Byte} {a : Word} {rel : Word → Word → Bool}
    (hc : isComparison i = true) :
    Ends i s (s.compareOperands (s.bytesOf i) r a rel) :=
  ends_withOperands fun v m _ => by
    have h : Body i s (s.setFlag (rel v m)) (s.pc + 4) :=
      { body_same (i := i) (s := s) (fun _ => rfl) with flag := by simp [hc] }
    simpa [advance] using ends_of_body h

theorem ends_jumpIf {i : Instr} {s : State} {taken : Bool} {target : Word} (ht : isTransfer i = true) :
    Ends i s (s.jumpIf taken target) := by
  unfold jumpIf
  split
  · exact ends_of_body (body_same (by simp [ht]))
  · exact ends_of_body (body_same (by simp))

/-- The store of a value below a cursor in the stack segment, with the cursor moved there. -/
theorem body_pushValue {i : Instr} {s : State} {n : Nat} (v : Word) (hn : n = 1 ∨ n = 2)
    (h : s.cfg.stackBase + n ≤ s.sp.toNat) (hi : movesCursor i = true) :
    Body i s (s.pushValue n v) (s.pc + 4) := by
  have hsp : (s.sp - BitVec.ofNat 16 n).toNat = s.sp.toNat - n := by
    have := s.sp.isLt
    rw [BitVec.toNat_sub, BitVec.toNat_ofNat]
    rcases hn with rfl | rfl <;> omega
  refine
    { cfg := by simp, fault := by simp, inStream := by simp, flag := by simp, sp := by simp [hi], cursor := ?_
      returnStack := by simp, returnStackInv := fun h => by simpa [ReturnStackInv] using h, engine := by simp, input := by simp, output := by simp
      target := fun _ => rfl, memory := ?_, program := ?_ }
  · intro _ hc
    refine ⟨?_, ?_⟩
    · simp only [CursorInv, pushValue_cfg, pushValue_sp, hsp]; omega
    · simp only [pushValue_sp, hsp]
      rcases hn with rfl | rfl <;> omega
  · intro hL hc hm
    obtain ⟨-, -, h3, h4, -, -⟩ := legal_bounds hL
    have := writeN_memory (v := v) hn hm (by omega : s.sp.toNat - n + n ≤ s.cfg.memSize)
    simpa [MemoryInv, pushValue] using this
  · intro hL hc a ha _
    obtain ⟨-, -, h3, -, -, -⟩ := legal_bounds hL
    exact byte_writeN_other s v hn (by omega)

theorem ends_push (r : Byte) (x : Word) (s : State) :
    ∃ t, exec (.push r x) s = .next t ∧ Ends (.push r x) s t := by
  refine ⟨_, rfl, ends_withRegister fun _ => ?_⟩
  split
  · rename_i h
    simpa [advance] using ends_of_body (body_pushValue (i := .push r x) (s.readReg r) (registerWidth_eq r)
      (by simpa [stackHasRoom] using h) rfl)
  · exact ends_of_fault .stackOverflow _

theorem ends_pop (r : Byte) (x : Word) (s : State) :
    ∃ t, exec (.pop r x) s = .next t ∧ Ends (.pop r x) s t := by
  refine ⟨_, rfl, ends_withRegister fun hr => ?_⟩
  split
  · rename_i h
    have hh : s.sp.toNat + registerWidth r ≤ s.cfg.stackTop := by simpa [stackHolds] using h
    have hw := registerWidth_eq r
    have hb := body_writeReg (i := .pop r x) (s := s) hr (s.topValue (registerWidth r))
    have h' : Body (.pop r x) s
        ((s.writeReg r (s.topValue (registerWidth r))).setSp (s.sp + BitVec.ofNat 16 (registerWidth r))) (s.pc + 4) :=
      { hb with
        sp := by simp [movesCursor]
        cursor := by
          intro hL hc
          obtain ⟨-, -, h3, h4, h5, -⟩ := legal_bounds hL
          have e : (s.sp + BitVec.ofNat 16 (registerWidth r)).toNat = s.sp.toNat + registerWidth r := by
            rw [BitVec.toNat_add, BitVec.toNat_ofNat]
            rcases hw with hw | hw <;> rw [hw] at hh ⊢ <;> omega
          simp only [CursorInv, setSp_cfg, writeReg_cfg, setSp_sp, e]
          rcases hw with hw | hw <;> rw [hw] at hh ⊢ <;> omega }
    simpa [advance] using ends_of_body h'
  · exact ends_of_fault .stackUnderflow _

theorem ends_dup (x0 x1 x2 : Byte) (s : State) :
    ∃ t, exec (.dup x0 x1 x2) s = .next t ∧ Ends (.dup x0 x1 x2) s t := by
  refine ⟨_, rfl, ?_⟩
  split
  · exact ends_of_fault .stackUnderflow _
  · split
    · exact ends_of_fault .stackOverflow _
    · rename_i h1 h2
      -- Below STACK_BASE no run ever is; there the byte is stored below the cursor all the same.
      by_cases h3 : s.cfg.stackBase + 1 ≤ s.sp.toNat
      · simpa [advance] using ends_of_body (body_pushValue (i := .dup x0 x1 x2) (s.topValue 1) (Or.inl rfl) h3 rfl)
      · have hno : ∀ {p : Prop}, s.CursorInv → p := fun hc => by omega
        have hb : Body (.dup x0 x1 x2) s (s.pushValue 1 (s.topValue 1)) (s.pc + 4) :=
          { cfg := by simp, fault := by simp, inStream := by simp, flag := by simp, sp := by simp [movesCursor]
            cursor := fun _ hc => hno hc
            returnStack := by simp, returnStackInv := fun h => by simpa [ReturnStackInv] using h, engine := by simp, input := by simp, output := by simp
            target := fun _ => rfl, memory := fun _ hc => hno hc, program := fun _ hc => hno hc }
        simpa [advance] using ends_of_body hb

theorem ends_swap (r : Byte) (x : Word) (s : State) :
    ∃ t, exec (.swap r x) s = .next t ∧ Ends (.swap r x) s t := by
  refine ⟨_, rfl, ends_withRegister fun hr => ?_⟩
  split
  · rename_i h
    have hh : s.sp.toNat + registerWidth r ≤ s.cfg.stackTop := by simpa [stackHolds] using h
    have hw := registerWidth_eq r
    have hb := body_writeReg (i := .swap r x) (s := s.writeN s.sp.toNat (registerWidth r) (s.readReg r)) hr
      (s.topValue (registerWidth r))
    have h' : Body (.swap r x) s ((s.writeN s.sp.toNat (registerWidth r) (s.readReg r)).writeReg r
        (s.topValue (registerWidth r))) (s.pc + 4) :=
      { cfg := by simp, fault := by simp, inStream := by simp, flag := by simp, sp := by simp
        cursor := fun _ hc => ⟨by simpa [CursorInv] using hc, by simp, by simp⟩
        returnStack := by simp, returnStackInv := fun h => by simpa [ReturnStackInv] using h, engine := by simp, input := by simp, output := by simp
        target := fun _ => rfl
        memory := by
          intro hL hc hm
          obtain ⟨-, -, h3, h4, -, -⟩ := legal_bounds hL
          have := writeN_memory (v := s.readReg r) hw hm (by omega : s.sp.toNat + registerWidth r ≤ s.cfg.memSize)
          exact hb.memory (by simpa using hL) (by simpa [CursorInv] using hc) (by simpa [MemoryInv] using this)
        program := by
          intro hL hc a ha ha'
          obtain ⟨-, -, h3, -, -, -⟩ := legal_bounds hL
          rw [hb.program (by simpa using hL) (by simpa [CursorInv] using hc) a (by simpa using ha) (by simpa using ha')]
          exact byte_writeN_other s _ hw (by omega) }
    simpa [advance] using ends_of_body h'
  · exact ends_of_fault .stackUnderflow _

theorem ends_call (x : Byte) (target : Word) (s : State) :
    ∃ t, exec (.call x target) s = .next t ∧ Ends (.call x target) s t := by
  refine ⟨_, rfl, ?_⟩
  split
  · exact ends_of_fault .stackOverflow _
  · rename_i h
    have hb : Body (.call x target) s
        ((s.setRas (s.ras.set s.rasCount (s.pc + 4))).setRasCount (s.rasCount + 1)) target :=
      { body_same (i := .call x target) (s := s) (target := target) (by simp [isTransfer]) with
        returnStack := by simp [usesReturnStack]
        returnStackInv := by
          intro hi
          simp only [ReturnStackInv, setRasCount_ras, setRas_ras, List.length_set, setRasCount_cfg, setRas_cfg,
            setRasCount_rasCount]
          omega }
    exact ends_of_body hb

theorem ends_ret (x0 x1 x2 : Byte) (s : State) :
    ∃ t, exec (.ret x0 x1 x2) s = .next t ∧ Ends (.ret x0 x1 x2) s t := by
  refine ⟨_, rfl, ?_⟩
  split
  · exact ends_of_fault .stackUnderflow _
  · have hb : Body (.ret x0 x1 x2) s (s.setRasCount (s.rasCount - 1)) (s.ras.getD (s.rasCount - 1) 0) :=
      { body_same (i := .ret x0 x1 x2) (s := s) (target := s.ras.getD (s.rasCount - 1) 0) (by simp [isTransfer]) with
        returnStack := by simp [usesReturnStack]
        returnStackInv := by
          intro hi
          simp only [ReturnStackInv, setRasCount_ras, setRasCount_cfg, setRasCount_rasCount]
          omega }
    exact ends_of_body hb

theorem ends_load (r : Byte) (a : Word) (s : State) :
    ∃ t, exec (.load r a) s = .next t ∧ Ends (.load r a) s t := by
  refine ⟨_, rfl, ends_withRegister fun hr => ?_⟩
  rcases withMemory_cases s (s.bytesOf (.load r a)) a (registerWidth r) fun v => (s.writeReg r v).advance with
    ⟨-, e⟩ | ⟨-, e⟩ <;> rw [e]
  · simpa [advance] using ends_of_body (body_writeReg (i := .load r a) hr (s.readN a.toNat (registerWidth r)))
  · exact ends_of_fault .outOfBounds _

theorem ends_store (r : Byte) (a : Word) (s : State) :
    ∃ t, exec (.store r a) s = .next t ∧ Ends (.store r a) s t := by
  refine ⟨_, rfl, ends_withRegister fun _ => ?_⟩
  have hw := registerWidth_eq r
  rcases memWrite_cases s a.toNat (registerWidth r) (s.readReg r) with ⟨h1, h2, e⟩ | ⟨-, e⟩ <;> rw [e]
  · have hb : Body (.store r a) s (s.writeN a.toNat (registerWidth r) (s.readReg r)) (s.pc + 4) :=
      { cfg := by simp, fault := by simp, inStream := by simp, flag := by simp, sp := by simp
        cursor := fun _ hc => ⟨by simpa [CursorInv] using hc, by simp, by simp⟩
        returnStack := by simp, returnStackInv := fun h => by simpa [ReturnStackInv] using h, engine := by simp, input := by simp, output := by simp
        target := fun _ => rfl
        memory := fun _ _ hm => by simpa [MemoryInv] using writeN_memory (v := s.readReg r) hw hm h1
        program := fun _ _ k hk hk' => byte_writeN_other s _ hw (by omega) }
    simpa [advance] using ends_of_body hb
  · exact ends_of_fault .outOfBounds _

theorem ends_mov (r : Byte) (imm : Word) (s : State) :
    ∃ t, exec (.mov r imm) s = .next t ∧ Ends (.mov r imm) s t :=
  ⟨_, rfl, ends_withRegister fun hr => by
    simpa [advance] using ends_of_body (body_writeReg (i := .mov r imm) hr imm)⟩

theorem ends_inp (r : Byte) (x : Word) (s : State) :
    ∃ t, exec (.inp r x) s = .next t ∧ Ends (.inp r x) s t := by
  refine ⟨_, rfl, ends_withRegister fun hr => ?_⟩
  split
  · rename_i b h
    have hlt : s.inPos < s.inStream.length := (List.getElem?_eq_some_iff.1 h).1
    have hb := body_writeReg (i := .inp r x) (s := s.setInPos (s.inPos + 1)) hr (b.setWidth 16)
    have h' : Body (.inp r x) s ((s.setInPos (s.inPos + 1)).writeReg r (b.setWidth 16)) (s.pc + 4) :=
      { cfg := hb.cfg, fault := hb.fault, inStream := hb.inStream, flag := hb.flag, sp := hb.sp, cursor := hb.cursor
        returnStack := hb.returnStack, returnStackInv := hb.returnStackInv, engine := hb.engine
        input := .inr ⟨by simp, hlt⟩
        output := hb.output, target := hb.target, memory := hb.memory, program := hb.program }
    simpa [advance] using ends_of_body h'
  · exact ends_of_fault .ioError _

theorem ends_out (r : Byte) (x : Word) (s : State) :
    ∃ t, exec (.out r x) s = .next t ∧ Ends (.out r x) s t :=
  ⟨_, rfl, ends_withRegister fun _ => by
    have h : Body (.out r x) s (s.setOut (s.out ++ [loByte (s.readReg r)])) (s.pc + 4) :=
      { body_same (i := .out r x) (s := s) (fun _ => rfl) with output := .inr ⟨loByte (s.readReg r), rfl⟩ }
    simpa [advance] using ends_of_body h⟩

theorem ends_halt (x : Word) (status : Byte) (s : State) :
    ∃ t, exec (.halt x status) s = .next t ∧ Ends (.halt x status) s t :=
  ⟨_, rfl, by
    have h : Body (.halt x status) s ((s.setExitCode status).setState .halted) (s.pc + 4) :=
      { body_same (i := .halt x status) (s := s) (fun _ => rfl) with engine := .inr ⟨rfl, x, status, rfl⟩ }
    simpa [advance] using ends_of_body h⟩

/-- What an instruction can do: it always has a next state, which is its fault or the completion of its body. -/
theorem exec_cases (i : Instr) (s : State) : ∃ t, exec i s = .next t ∧ Ends i s t := by
  cases i with
  | nop => exact ⟨_, rfl, ends_of_body (body_same fun _ => rfl)⟩
  | lab => exact ⟨_, rfl, ends_of_body (body_same fun _ => rfl)⟩
  | sys x0 x1 x2 => exact ⟨_, rfl, ends_of_fault .unimplementedOpcode _ (h'' := fun _ => ⟨x0, x1, x2, rfl⟩)⟩
  | add => exact ⟨_, rfl, ends_accumulate⟩
  | sub => exact ⟨_, rfl, ends_accumulate⟩
  | mul => exact ⟨_, rfl, ends_accumulate⟩
  | and => exact ⟨_, rfl, ends_accumulate⟩
  | or => exact ⟨_, rfl, ends_accumulate⟩
  | xor => exact ⟨_, rfl, ends_accumulate⟩
  | shl => exact ⟨_, rfl, ends_accumulate⟩
  | shr => exact ⟨_, rfl, ends_accumulate⟩
  | div => exact ⟨_, rfl, ends_accumulateNonzero⟩
  | mod => exact ⟨_, rfl, ends_accumulateNonzero⟩
  | inc => exact ⟨_, rfl, ends_modifyRegister⟩
  | dec => exact ⟨_, rfl, ends_modifyRegister⟩
  | not => exact ⟨_, rfl, ends_modifyRegister⟩
  | eq => exact ⟨_, rfl, ends_compareOperands rfl⟩
  | neq => exact ⟨_, rfl, ends_compareOperands rfl⟩
  | lt => exact ⟨_, rfl, ends_compareOperands rfl⟩
  | gt => exact ⟨_, rfl, ends_compareOperands rfl⟩
  | lte => exact ⟨_, rfl, ends_compareOperands rfl⟩
  | gte => exact ⟨_, rfl, ends_compareOperands rfl⟩
  | push r x => exact ends_push r x s
  | pop r x => exact ends_pop r x s
  | dup x0 x1 x2 => exact ends_dup x0 x1 x2 s
  | swap r x => exact ends_swap r x s
  | jmp => exact ⟨_, rfl, ends_of_body (body_same (by simp [isTransfer]))⟩
  | jmpt => exact ⟨_, rfl, ends_jumpIf rfl⟩
  | jmpf => exact ⟨_, rfl, ends_jumpIf rfl⟩
  | jz => exact ⟨_, rfl, ends_jumpIf rfl⟩
  | call x target => exact ends_call x target s
  | ret x0 x1 x2 => exact ends_ret x0 x1 x2 s
  | load r a => exact ends_load r a s
  | store r a => exact ends_store r a s
  | mov r imm => exact ends_mov r imm s
  | inp r x => exact ends_inp r x s
  | out r x => exact ends_out r x s
  | halt x status => exact ends_halt x status s

/-- What a step can do: only a Running CORE has one; it is the fetch fault, the illegal-opcode fault or the decoded
instruction. -/
theorem step_cases {s t : State} (h : step s = .next t) :
    s.state = .running ∧
      ((s.fetch = none ∧ t = s.fetchFault) ∨
       (∃ b e, s.fetch = some b ∧ decodeRecord s.cfg.opc b = .error e ∧ t = s.illegalOpcode b) ∨
       (∃ b i, s.fetch = some b ∧ decodeRecord s.cfg.opc b = .ok i ∧ exec i s = .next t ∧ Ends i s t)) := by
  unfold step at h
  split at h <;> try contradiction
  rename_i hs
  refine ⟨hs, ?_⟩
  split at h
  · rename_i hf
    exact .inl ⟨hf, (Host.Outcome.next.inj h).symm⟩
  · rename_i b hf
    split at h
    · rename_i i hd
      obtain ⟨t', ht, he⟩ := exec_cases i s
      obtain rfl := Host.Outcome.next.inj (ht.symm.trans h)
      exact .inr (.inr ⟨b, i, hf, hd, ht, he⟩)
    · rename_i e hd
      exact .inr (.inl ⟨b, e, hf, hd, (Host.Outcome.next.inj h).symm⟩)

end Sys2Proof.Machine
end

