-- ==== Sys2Proof/Laws/HostPort.lean ====
section
/-! SUPPORT. What each of the host's operations can do, said once: the block write, the loader's block write, the end of a load, and
`run`. -/

namespace Sys2Proof.Machine

open Sys2Proof

/-- The program segment lies inside the buffer. -/
theorem progSegment_le_memSize (c : Config) : c.progBase + c.progSize ≤ c.memSize := by
  simp only [Config.memSize, Config.c16Base, Config.c8Base, Config.heapBase]
  omega

namespace State

variable (s : State)

/-- A block write is made, or fails on the length of its data, or on its bounds. -/
theorem writeBlock_cases (a n : Nat) (data : List Byte) :
    (data.length = n ∧ a + n ≤ s.cfg.memSize ∧ s.writeBlock a n data = .ok (s.setMem (s.mem.writeBlock a data))) ∨
    (data.length ≠ n ∧ s.writeBlock a n data = .error .sizeMismatch) ∨
    (data.length = n ∧ s.cfg.memSize < a + n ∧ s.writeBlock a n data = .error .outOfBounds) := by
  unfold writeBlock inBuffer
  by_cases h : data.length = n
  · by_cases h' : a + n ≤ s.cfg.memSize
    · exact .inl ⟨h, h', by simp [h, h']⟩
    · exact .inr (.inr ⟨h, by omega, by simp [h, h']⟩)
  · exact .inr (.inl ⟨h, by simp [h]⟩)

/-- The loader's block write is made in Loaded, or fails there on the length of its data or of its block, or is not allowed. -/
theorem loadBlock_cases (size : Nat) (data : List Byte) :
    (s.state = .loaded ∧ data.length = size ∧ size ≤ s.cfg.progSize ∧
      s.loadBlock size data = .ok (s.setMem (s.mem.writeBlock s.cfg.progBase data))) ∨
    (s.state = .loaded ∧ data.length ≠ size ∧ s.loadBlock size data = .error .sizeMismatch) ∨
    (s.state = .loaded ∧ data.length = size ∧ s.cfg.progSize < size ∧ s.loadBlock size data = .error .outOfBounds) ∨
    (s.state ≠ .loaded ∧ s.loadBlock size data = .error .notAllowed) := by
  unfold loadBlock
  by_cases h : s.state = .loaded
  · by_cases h1 : data.length = size
    · by_cases h2 : size ≤ s.cfg.progSize
      · have hb := progSegment_le_memSize s.cfg
        refine .inl ⟨h, h1, h2, ?_⟩
        rcases writeBlock_cases s s.cfg.progBase size data with ⟨-, -, e⟩ | ⟨h', -⟩ | ⟨-, h', -⟩
        · simp [h, h1, Nat.not_lt.2 h2, e]
        · exact absurd h1 h'
        · omega
      · exact .inr (.inr (.inl ⟨h, h1, by omega, by simp [h, h1, Nat.lt_of_not_le h2]⟩))
    · exact .inr (.inl ⟨h, h1, by simp [h, h1]⟩)
  · exact .inr (.inr (.inr ⟨h, by simp [h]⟩))

/-- The attempt to load an unreadable image fails with IOError in Loaded, and is not allowed elsewhere. -/
theorem loadUnreadable_cases :
    (s.state = .loaded ∧ s.loadUnreadable = .error .ioError) ∨
      (s.state ≠ .loaded ∧ s.loadUnreadable = .error .notAllowed) := by
  unfold loadUnreadable
  by_cases h : s.state = .loaded <;> simp [h]

/-- What a successful load leaves. -/
theorem load_ok {s t : State} {image : List Byte} (h : s.load image = .ok t) :
    s.state = .loaded ∧ image.length ≤ s.cfg.progSize ∧ t = s.setMem (s.mem.writeBlock s.cfg.progBase image) := by
  unfold load at h
  rcases loadBlock_cases s image.length image with ⟨h1, -, h2, e⟩ | ⟨-, -, e⟩ | ⟨-, -, -, e⟩ | ⟨-, e⟩ <;>
    rw [e] at h <;> cases h
  exact ⟨h1, h2, rfl⟩

end State

namespace Session

/-- The end of a load: refused, made, or failed with start-up aborted. -/
theorem finishLoad_cases (h : Session) (made : Except HostError State) :
    ((h.loadDone = true ∨ h.startupAborted = true ∨ made = .error .notAllowed) ∧
      h.finishLoad made = (h, some .notAllowed)) ∨
    (h.loadDone = false ∧ h.startupAborted = false ∧
      ((∃ s, made = .ok s ∧ h.finishLoad made = (⟨s, true, false⟩, none)) ∨
       ∃ e, e ≠ .notAllowed ∧ made = .error e ∧ h.finishLoad made = (⟨h.core, false, true⟩, some e))) := by
  unfold finishLoad
  cases hd : h.loadDone <;> cases ha : h.startupAborted
  · rcases made with e | s
    · cases e <;> simp
    · simp
  all_goals simp

end Session

end Sys2Proof.Machine
end

