-- ==== Sys2Proof/Laws/Inert.lean ====
section
/-! SUPPORT. Updates that the shared operations neither see nor disturb: of the flag, of the return-address stack, of the input
stream. Every operation over memory and registers commutes with such an update. -/

namespace Sys2Proof.Machine

open Sys2Proof State

/-- An update that keeps every field the shared operations read, and commutes with every field they write. -/
structure Inert (f : State → State) : Prop where
  cfg : ∀ s, (f s).cfg = s.cfg
  mem : ∀ s, (f s).mem = s.mem
  pc : ∀ s, (f s).pc = s.pc
  sp : ∀ s, (f s).sp = s.sp
  setMem : ∀ s v, (f s).setMem v = f (s.setMem v)
  setPc : ∀ s v, (f s).setPc v = f (s.setPc v)
  setSp : ∀ s v, (f s).setSp v = f (s.setSp v)
  setFault : ∀ s v, (f s).setFault v = f (s.setFault v)
  setState : ∀ s v, (f s).setState v = f (s.setState v)
  setExitCode : ∀ s v, (f s).setExitCode v = f (s.setExitCode v)
  setInPos : ∀ s v, (f s).setInPos v = f (s.setInPos v)
  setOut : ∀ s v, (f s).setOut v = f (s.setOut v)

theorem inert_setFlag (b : Bool) : Inert fun s => s.setFlag b := by constructor <;> intros <;> rfl
theorem inert_setRas (l : List Word) : Inert fun s => s.setRas l := by constructor <;> intros <;> rfl
theorem inert_setRasCount (n : Nat) : Inert fun s => s.setRasCount n := by constructor <;> intros <;> rfl
theorem inert_setInStream (l : List Byte) : Inert fun s => s.setInStream l := by constructor <;> intros <;> rfl

namespace Inert

variable {f : State → State} (h : Inert f) (s : State)
include h

theorem byte (a : Nat) : (f s).byte a = s.byte a := by simp only [State.byte, h.mem]

theorem readN (a n : Nat) : (f s).readN a n = s.readN a n := by simp only [State.readN, h.byte]

theorem readReg (r : Byte) : (f s).readReg r = s.readReg r := by simp only [State.readReg, h.readN, h.cfg]

theorem topValue (n : Nat) : (f s).topValue n = s.topValue n := by simp only [State.topValue, h.readN, h.sp]

theorem stackHasRoom (n : Nat) : (f s).stackHasRoom n = s.stackHasRoom n := by
  simp only [State.stackHasRoom, h.cfg, h.sp]

theorem stackHolds (n : Nat) : (f s).stackHolds n = s.stackHolds n := by simp only [State.stackHolds, h.cfg, h.sp]

theorem inBuffer (a n : Nat) : (f s).inBuffer a n = s.inBuffer a n := by simp only [State.inBuffer, h.cfg]

theorem meetsProgram (a n : Nat) : (f s).meetsProgram a n = s.meetsProgram a n := by
  simp only [State.meetsProgram, h.cfg]

theorem canFetch : (f s).canFetch = s.canFetch := by simp only [State.canFetch, h.cfg, h.pc]

theorem fetchAddress : (f s).fetchAddress = s.fetchAddress := by simp only [State.fetchAddress, h.cfg, h.pc]

theorem memRead (a n : Nat) : (f s).memRead a n = s.memRead a n := by
  simp only [State.memRead, h.inBuffer, h.readN]

theorem bytesOf (i : Instr) : (f s).bytesOf i = s.bytesOf i := by simp only [State.bytesOf, h.cfg]

theorem opcodeAddress : (f s).opcodeAddress = s.opcodeAddress := by simp only [State.opcodeAddress, h.cfg, h.pc]

theorem fetch : (f s).fetch = s.fetch := by
  simp only [State.fetch, memRead4, h.canFetch, h.inBuffer, h.fetchAddress, h.byte]

theorem setByte (a : Nat) (v : Byte) : (f s).setByte a v = f (s.setByte a v) := by
  simp only [State.setByte, h.mem, h.setMem]

theorem writeN (a n : Nat) (v : Word) : (f s).writeN a n v = f (s.writeN a n v) := by
  unfold State.writeN
  split <;> simp only [h.setByte]

theorem writeReg (r : Byte) (v : Word) : (f s).writeReg r v = f (s.writeReg r v) := by
  simp only [State.writeReg, h.cfg, h.writeN]

theorem memWrite (a n : Nat) (v : Word) : (f s).memWrite a n v = (s.memWrite a n v).map f := by
  unfold State.memWrite
  simp only [h.inBuffer, h.meetsProgram, h.writeN]
  split
  · rfl
  · split <;> rfl

theorem pushValue (n : Nat) (v : Word) : (f s).pushValue n v = f (s.pushValue n v) := by
  simp only [State.pushValue, h.sp, h.writeN, h.setSp]

theorem complete (target : Word) : (f s).complete target = f (s.complete target) := by
  simp only [State.complete, mirrorAddress, h.cfg, h.setPc, h.writeN]

theorem advance : (f s).advance = f s.advance := by simp only [State.advance, h.pc, h.complete]

theorem takeFault (b : Record) (k : FaultKind) (info : Word) :
    (f s).takeFault b k info = f (s.takeFault b k info) := by
  simp only [State.takeFault, h.pc, h.setFault, h.setState]

end Inert

end Sys2Proof.Machine
end

