-- ==== Sys2Proof/Laws/PerInstr.lean ====
section
/-! SUPPORT. What holds of every instruction as syntax, one lemma per constructor. RecordFields: the record an instruction is encoded
as holds its opcode byte, and its operand bytes give the instruction back (rules R75, R77, R82). -/

namespace Sys2Proof.Laws.RecordFields

open Sys2Proof

/-- The encoding starts with the mnemonic's opcode byte under every table, and its three operand bytes give the instruction
back. -/
def Statement (i : Instr) : Prop :=
  ∀ t : OpcodeTable, (encode t i).opc = t.byte i.mnemonic ∧
    Instr.ofOperands i.mnemonic (encode t i).op0 (encode t i).op1 (encode t i).op2 = i

theorem nop (x0 x1 x2 : Byte) : Statement (.nop x0 x1 x2) := fun _ => ⟨rfl, by simp [encode, Instr.operands, Instr.mnemonic, Instr.ofOperands]⟩
theorem add (r : Byte) (a : Word) : Statement (.add r a) := fun _ => ⟨rfl, by simp [encode, Instr.operands, Instr.mnemonic, Instr.ofOperands]⟩
theorem sub (r : Byte) (a : Word) : Statement (.sub r a) := fun _ => ⟨rfl, by simp [encode, Instr.operands, Instr.mnemonic, Instr.ofOperands]⟩
theorem mul (r : Byte) (a : Word) : Statement (.mul r a) := fun _ => ⟨rfl, by simp [encode, Instr.operands, Instr.mnemonic, Instr.ofOperands]⟩
theorem div (r : Byte) (a : Word) : Statement (.div r a) := fun _ => ⟨rfl, by simp [encode, Instr.operands, Instr.mnemonic, Instr.ofOperands]⟩
theorem mod (r : Byte) (a : Word) : Statement (.mod r a) := fun _ => ⟨rfl, by simp [encode, Instr.operands, Instr.mnemonic, Instr.ofOperands]⟩
theorem inc (r : Byte) (x : Word) : Statement (.inc r x) := fun _ => ⟨rfl, by simp [encode, Instr.operands, Instr.mnemonic, Instr.ofOperands]⟩
theorem dec (r : Byte) (x : Word) : Statement (.dec r x) := fun _ => ⟨rfl, by simp [encode, Instr.operands, Instr.mnemonic, Instr.ofOperands]⟩
theorem and (r : Byte) (a : Word) : Statement (.and r a) := fun _ => ⟨rfl, by simp [encode, Instr.operands, Instr.mnemonic, Instr.ofOperands]⟩
theorem or (r : Byte) (a : Word) : Statement (.or r a) := fun _ => ⟨rfl, by simp [encode, Instr.operands, Instr.mnemonic, Instr.ofOperands]⟩
theorem xor (r : Byte) (a : Word) : Statement (.xor r a) := fun _ => ⟨rfl, by simp [encode, Instr.operands, Instr.mnemonic, Instr.ofOperands]⟩
theorem not (r : Byte) (x : Word) : Statement (.not r x) := fun _ => ⟨rfl, by simp [encode, Instr.operands, Instr.mnemonic, Instr.ofOperands]⟩
theorem shl (r : Byte) (a : Word) : Statement (.shl r a) := fun _ => ⟨rfl, by simp [encode, Instr.operands, Instr.mnemonic, Instr.ofOperands]⟩
theorem shr (r : Byte) (a : Word) : Statement (.shr r a) := fun _ => ⟨rfl, by simp [encode, Instr.operands, Instr.mnemonic, Instr.ofOperands]⟩
theorem eq (r : Byte) (a : Word) : Statement (.eq r a) := fun _ => ⟨rfl, by simp [encode, Instr.operands, Instr.mnemonic, Instr.ofOperands]⟩
theorem neq (r : Byte) (a : Word) : Statement (.neq r a) := fun _ => ⟨rfl, by simp [encode, Instr.operands, Instr.mnemonic, Instr.ofOperands]⟩
theorem lt (r : Byte) (a : Word) : Statement (.lt r a) := fun _ => ⟨rfl, by simp [encode, Instr.operands, Instr.mnemonic, Instr.ofOperands]⟩
theorem gt (r : Byte) (a : Word) : Statement (.gt r a) := fun _ => ⟨rfl, by simp [encode, Instr.operands, Instr.mnemonic, Instr.ofOperands]⟩
theorem lte (r : Byte) (a : Word) : Statement (.lte r a) := fun _ => ⟨rfl, by simp [encode, Instr.operands, Instr.mnemonic, Instr.ofOperands]⟩
theorem gte (r : Byte) (a : Word) : Statement (.gte r a) := fun _ => ⟨rfl, by simp [encode, Instr.operands, Instr.mnemonic, Instr.ofOperands]⟩
theorem push (r : Byte) (x : Word) : Statement (.push r x) := fun _ => ⟨rfl, by simp [encode, Instr.operands, Instr.mnemonic, Instr.ofOperands]⟩
theorem pop (r : Byte) (x : Word) : Statement (.pop r x) := fun _ => ⟨rfl, by simp [encode, Instr.operands, Instr.mnemonic, Instr.ofOperands]⟩
theorem dup (x0 x1 x2 : Byte) : Statement (.dup x0 x1 x2) := fun _ => ⟨rfl, by simp [encode, Instr.operands, Instr.mnemonic, Instr.ofOperands]⟩
theorem swap (r : Byte) (x : Word) : Statement (.swap r x) := fun _ => ⟨rfl, by simp [encode, Instr.operands, Instr.mnemonic, Instr.ofOperands]⟩
theorem jmp (x : Byte) (target : Word) : Statement (.jmp x target) := fun _ => ⟨rfl, by simp [encode, Instr.operands, Instr.mnemonic, Instr.ofOperands]⟩
theorem jmpt (x : Byte) (target : Word) : Statement (.jmpt x target) := fun _ => ⟨rfl, by simp [encode, Instr.operands, Instr.mnemonic, Instr.ofOperands]⟩
theorem jmpf (x : Byte) (target : Word) : Statement (.jmpf x target) := fun _ => ⟨rfl, by simp [encode, Instr.operands, Instr.mnemonic, Instr.ofOperands]⟩
theorem jz (x : Byte) (target : Word) : Statement (.jz x target) := fun _ => ⟨rfl, by simp [encode, Instr.operands, Instr.mnemonic, Instr.ofOperands]⟩
theorem call (x : Byte) (target : Word) : Statement (.call x target) := fun _ => ⟨rfl, by simp [encode, Instr.operands, Instr.mnemonic, Instr.ofOperands]⟩
theorem ret (x0 x1 x2 : Byte) : Statement (.ret x0 x1 x2) := fun _ => ⟨rfl, by simp [encode, Instr.operands, Instr.mnemonic, Instr.ofOperands]⟩
theorem load (r : Byte) (a : Word) : Statement (.load r a) := fun _ => ⟨rfl, by simp [encode, Instr.operands, Instr.mnemonic, Instr.ofOperands]⟩
theorem store (r : Byte) (a : Word) : Statement (.store r a) := fun _ => ⟨rfl, by simp [encode, Instr.operands, Instr.mnemonic, Instr.ofOperands]⟩
theorem mov (r : Byte) (imm : Word) : Statement (.mov r imm) := fun _ => ⟨rfl, by simp [encode, Instr.operands, Instr.mnemonic, Instr.ofOperands]⟩
theorem inp (r : Byte) (x : Word) : Statement (.inp r x) := fun _ => ⟨rfl, by simp [encode, Instr.operands, Instr.mnemonic, Instr.ofOperands]⟩
theorem out (r : Byte) (x : Word) : Statement (.out r x) := fun _ => ⟨rfl, by simp [encode, Instr.operands, Instr.mnemonic, Instr.ofOperands]⟩
theorem lab (x0 x1 x2 : Byte) : Statement (.lab x0 x1 x2) := fun _ => ⟨rfl, by simp [encode, Instr.operands, Instr.mnemonic, Instr.ofOperands]⟩
theorem sys (x0 x1 x2 : Byte) : Statement (.sys x0 x1 x2) := fun _ => ⟨rfl, by simp [encode, Instr.operands, Instr.mnemonic, Instr.ofOperands]⟩
theorem halt (x : Word) (status : Byte) : Statement (.halt x status) := fun _ => ⟨rfl, by simp [encode, Instr.operands, Instr.mnemonic, Instr.ofOperands]⟩

end Sys2Proof.Laws.RecordFields
end

