-- ==== Sys2Proof/Tests/Slice0.lean ====
section
/-! SUPPORT. Tests. The expected results come from spec/95_test_vectors.md (the vector is named in each comment), from the opcode map of
rule R76 for the decoding tests, and from the rules cited. Each test is one step on a small state. At the end, a witness for
the hypotheses of every obligation. -/

namespace Sys2Proof.Tests

open Sys2Proof Machine Claims

/-- The state after one step with this word at PROG_BASE + pc. -/
def after (s : State) (w : Nat) : Option State :=
  match step (s.withFetchWord 32 w) with
  | .next t => some t
  | .fault _ | .refused _ => none

/-- The reset state with a 16-bit value in a register. -/
def withReg (r : Byte) (v : Word) : State := State.reset.writeReg r v

/-- A state with a 16-bit value at 0x4200, the first heap byte. -/
def heap (s : State) (v : Word) : State := s.writeN 0x4200 2 v

/-- The fault record a step leaves, when it enters Faulted, with the code of its kind. -/
def faultOf (t : Option State) : Option (BitVec 4 × FaultRecord) :=
  match t with
  | some t => if t.state = .faulted then some (t.fault.kind.code, t.fault) else none
  | none => none

/-! ### The check of WellFormed, and decoding: the words are written out from rules R71, R75, R76 -/

/-- The one check: register index 32 is refused (rule R74), 31 accepted. -/
theorem test_ill_formed_register : (Instr.add 32 0).wellFormed = false ∧ (Instr.add 31 0).wellFormed = true := by decide

theorem test_decode_arithmetic :
    [0x01104200, 0x02104200, 0x03104200, 0x04104200, 0x05104200, 0x0600FFFF, 0x07100000].map (decodeTableWord 32) =
      [some (.add 16 0x4200), some (.sub 16 0x4200), some (.mul 16 0x4200), some (.div 16 0x4200),
       some (.mod 16 0x4200), some (.inc 0 0xFFFF), some (.dec 16 0)] := by decide

theorem test_decode_logical :
    [0x08104200, 0x09104200, 0x0A100010, 0x0B000000, 0x0C004200, 0x0D104200].map (decodeTableWord 32) =
      [some (.and 16 0x4200), some (.or 16 0x4200), some (.xor 16 0x0010), some (.not 0 0),
       some (.shl 0 0x4200), some (.shr 16 0x4200)] := by decide

theorem test_decode_comparison :
    [0x0E104200, 0x0F104200, 0x10104200, 0x11104200, 0x12104200, 0x13004200].map (decodeTableWord 32) =
      [some (.eq 16 0x4200), some (.neq 16 0x4200), some (.lt 16 0x4200), some (.gt 16 0x4200),
       some (.lte 16 0x4200), some (.gte 0 0x4200)] := by decide

theorem test_decode_stack :
    [0x14100000, 0x15110000, 0x16000000, 0x17100000].map (decodeTableWord 32) =
      [some (.push 16 0), some (.pop 17 0), some (.dup 0 0 0), some (.swap 16 0)] := by decide

theorem test_decode_control_flow :
    [0x18FF1235, 0x19000010, 0x1A000010, 0x1B000100, 0x1C000018, 0x1D000000].map (decodeTableWord 32) =
      [some (.jmp 0xFF 0x1235), some (.jmpt 0 0x0010), some (.jmpf 0 0x0010), some (.jz 0 0x0100),
       some (.call 0 0x0018), some (.ret 0 0 0)] := by decide

theorem test_decode_memory_register :
    [0x1E104200, 0x1F114200, 0x20101234].map (decodeTableWord 32) =
      [some (.load 16 0x4200), some (.store 17 0x4200), some (.mov 16 0x1234)] := by decide

theorem test_decode_io_system :
    [0x21000000, 0x22110000, 0x23010203, 0x00FFFFFF, 0x24C80000, 0x250909FF].map (decodeTableWord 32) =
      [some (.inp 0 0), some (.out 17 0), some (.lab 1 2 3), some (.nop 0xFF 0xFF 0xFF), some (.sys 0xC8 0 0),
       some (.halt 0x0909 0xFF)] := by decide

/-- VG14, VG15: the first illegal opcode and the last (rule R78). -/
theorem test_decode_illegal :
    [0x26010203, 0xFFFFFFFF].map (decodeTableWord 32) = [none, none] := by decide

/-- A byte list shorter than a record is refused by name (rule R70); a record is split off the front (rule R93). -/
theorem test_decode_bytes :
    decode OpcodeTable.default [0x20, 0x10, 0x12] = .error .truncated ∧
      decode OpcodeTable.default [0x20, 0x00, 0x00, 0x03, 0x25] = .ok (.mov 0 3, [0x25]) := by decide

/-! ### One step per vector -/

/-- VA1 -/
theorem test_add_wraps :
    (after (heap (withReg 16 0xFFFF) 0x0001) 0x01104200).map (fun t => (t.readReg 16, t.pc)) = some (0x0000, 0x0004) := by decide

/-- VA6: the operand is two bytes, the register keeps the low one -/
theorem test_add_byte_register :
    (after (heap (withReg 0 0x10) 0x1234) 0x01004200).map (fun t => (t.readReg 0, t.pc)) = some (0x44, 0x0004) := by decide

/-- VA2 -/
theorem test_sub_wraps :
    (after (heap (withReg 16 0) 0x0001) 0x02104200).map (fun t => (t.readReg 16, t.pc)) = some (0xFFFF, 0x0004) := by decide

/-- VA21 -/
theorem test_sub_own_bytes :
    (after (withReg 16 0x1234) 0x02100010).map (fun t => (t.readReg 16, t.pc)) = some (0, 0x0004) := by decide

/-- VA4 -/
theorem test_mul_low_half :
    (after (heap (withReg 16 0xFFFF) 0xFFFF) 0x03104200).map (fun t => (t.readReg 16, t.pc)) = some (0x0001, 0x0004) := by decide

/-- VA11 -/
theorem test_div_unsigned :
    (after (heap (withReg 16 0xFFFF) 0x0002) 0x04104200).map (fun t => (t.readReg 16, t.pc)) = some (0x7FFF, 0x0004) := by decide

/-- VA14 -/
theorem test_div_by_zero :
    faultOf (after ((withReg 16 9).setPc 4) 0x04104200) = some (5, ⟨.divideByZero, 4, 0x04, 0x10, 0x42, 0x00, 0x4200⟩) := by decide

/-- VA13: the divisor 0x0100 is not zero -/
theorem test_mod_byte_register :
    (after (heap (withReg 0 0xC8) 0x0100) 0x05004200).map (fun t => (t.readReg 0, t.pc)) = some (0xC8, 0x0004) := by decide

/-- VA17 -/
theorem test_inc_ignores_bytes :
    (after (withReg 0 0xFF) 0x0600FFFF).map (fun t => (t.readReg 0, t.pc)) = some (0, 0x0004) := by decide

/-- VA18 -/
theorem test_dec_wraps :
    (after (State.reset) 0x07100000).map (fun t => (t.readReg 16, t.pc)) = some (0xFFFF, 0x0004) := by decide

/-- VA23 -/
theorem test_operand_past_end :
    faultOf (after (withReg 16 5) 0x0110C4FF) = some (3, ⟨.outOfBounds, 0, 0x01, 0x10, 0xC4, 0xFF, 0xC4FF⟩) := by decide

/-- VH1 -/
theorem test_register_index_first :
    faultOf (after (State.reset) 0x0420FFFF) = some (3, ⟨.outOfBounds, 0, 0x04, 0x20, 0xFF, 0xFF, 0x0020⟩) := by decide

/-- VB1 -/
theorem test_and :
    (after (heap (withReg 16 0xF0F0) 0x3C3C) 0x08104200).map (fun t => (t.readReg 16, t.pc)) = some (0x3030, 0x0004) := by decide

/-- VB15 -/
theorem test_or_byte_register :
    (after (heap (withReg 0 0x01) 0xFF80) 0x09004200).map (fun t => (t.readReg 0, t.pc)) = some (0x81, 0x0004) := by decide

/-- VB16 -/
theorem test_xor_own_bytes :
    (after (withReg 16 0xBEEF) 0x0A100010).map (fun t => (t.readReg 16, t.pc)) = some (0, 0x0004) := by decide

/-- VB4 -/
theorem test_not_byte_register :
    (after (withReg 0 0xA5) 0x0B000000).map (fun t => (t.readReg 0, t.pc)) = some (0x5A, 0x0004) := by decide

/-- VB9 -/
theorem test_shl_masks_count :
    (after (heap (withReg 16 0x0001) 0xFF1F) 0x0C104200).map (fun t => (t.readReg 16, t.pc)) = some (0x8000, 0x0004) := by decide

/-- VB10 -/
theorem test_shl_byte_register :
    (after (heap (withReg 0 0x81) 0x0009) 0x0C004200).map (fun t => (t.readReg 0, t.pc)) = some (0x02, 0x0004) := by decide

/-- VB12 -/
theorem test_shr_logical :
    (after (heap (withReg 16 0x8000) 0x000F) 0x0D104200).map (fun t => (t.readReg 16, t.pc)) = some (0x0001, 0x0004) := by decide

/-- VC14 -/
theorem test_eq_all_operand_bits :
    (after (heap (withReg 0 0x05) 0x0105) 0x0E004200).map (fun t => (t.flag, t.pc)) = some (false, 0x0004) := by decide

/-- VC3 -/
theorem test_neq_equal :
    (after (heap (withReg 16 0x0005) 0x0005) 0x0F104200).map (fun t => (t.flag, t.pc)) = some (false, 0x0004) := by decide

/-- VC5 -/
theorem test_lt_unsigned :
    (after (heap (withReg 16 0x7FFF) 0x8000) 0x10104200).map (fun t => (t.flag, t.pc)) = some (true, 0x0004) := by decide

/-- VC7 -/
theorem test_gt_unsigned :
    (after (heap (withReg 16 0xFFFF) 0x0001) 0x11104200).map (fun t => (t.flag, t.pc)) = some (true, 0x0004) := by decide

/-- VC9 -/
theorem test_lte_equal :
    (after (heap (withReg 16 0x0005) 0x0005) 0x12104200).map (fun t => (t.flag, t.pc)) = some (true, 0x0004) := by decide

/-- VC13 -/
theorem test_gte_byte_register :
    (after (heap (withReg 0 0xFF) 0x0100) 0x13004200).map (fun t => (t.flag, t.pc)) = some (false, 0x0004) := by decide

/-- VD1 -/
theorem test_push_word :
    (after (withReg 16 0x1234) 0x14100000).map (fun t => (t.byte 0x01FE, t.byte 0x01FF, t.sp)) = some (0x12, 0x34, 0x01FE) := by decide

/-- VD7 -/
theorem test_push_one_byte_short :
    faultOf (after ((withReg 16 0x1234).setSp 0x0101) 0x14100000) = some (7, ⟨.stackOverflow, 0, 0x14, 0x10, 0, 0, 0x0101⟩) := by decide

/-- VD4 -/
theorem test_pop_top_byte :
    (after ((State.reset.writeN 0x01FE 2 0x1234).setSp 0x01FE) 0x15010000).map (fun t => (t.readReg 1, t.sp)) = some (0x12, 0x01FF) := by decide

/-- VD5 -/
theorem test_pop_empty :
    faultOf (after (withReg 0 0x77) 0x15000000) = some (6, ⟨.stackUnderflow, 0, 0x15, 0, 0, 0, 0x0200⟩) := by decide

/-- VD10 -/
theorem test_dup_byte :
    (after ((State.reset.setByte 0x01FF 0xAB).setSp 0x01FF) 0x16000000).map (fun t => (t.byte 0x01FE, t.sp)) = some (0xAB, 0x01FE) := by decide

/-- VD12 -/
theorem test_dup_full :
    faultOf (after (State.reset.setSp 0x0100) 0x16000000) = some (7, ⟨.stackOverflow, 0, 0x16, 0, 0, 0, 0x0100⟩) := by decide

/-- VD13 -/
theorem test_swap_word :
    (after (((withReg 16 0x2468).writeN 0x01FE 2 0x1234).setSp 0x01FE) 0x17100000).map
      (fun t => (t.readReg 16, t.readN 0x01FE 2, t.sp)) = some (0x1234, 0x2468, 0x01FE) := by decide

/-- VE2 -/
theorem test_jmp_unaligned :
    (after (State.reset.setPc 8) 0x18FF1235).map (fun t => (t.pc, t.readN 0x0030 2)) = some (0x1235, 0x1235) := by decide

/-- VE3, VE4 -/
theorem test_jmpt :
    (after ((State.reset.setPc 0x1C).setFlag true) 0x19000010).map (·.pc) = some 0x0010 ∧
      (after (State.reset.setPc 0x1C) 0x19000010).map (·.pc) = some 0x0020 := by decide

/-- VE5, VE6 -/
theorem test_jmpf :
    (after (State.reset.setPc 0x1C) 0x1A000010).map (·.pc) = some 0x0010 ∧
      (after ((State.reset.setPc 0x1C).setFlag true) 0x1A000010).map (·.pc) = some 0x0020 := by decide

/-- VE7, VE8 -/
theorem test_jz :
    (after (State.reset.setPc 4) 0x1B000100).map (·.pc) = some 0x0100 ∧
      (after ((State.reset.setPc 4).setFlag true) 0x1B000100).map (·.pc) = some 0x0008 := by decide

/-- VE9 -/
theorem test_call_saves_next :
    (after (State.reset.setPc 8) 0x1C000018).map (fun t => (t.ras.head?, t.rasCount, t.pc, t.sp)) =
      some (some 0x000C, 1, 0x0018, 0x0200) := by decide

/-- VE12 -/
theorem test_call_full :
    faultOf (after ((State.reset.setPc 8).setRasCount 16) 0x1C000018) = some (7, ⟨.stackOverflow, 8, 0x1C, 0, 0, 0x18, 0x0010⟩) := by decide

/-- VE10, P3: the entry keeps its value -/
theorem test_ret :
    (after (((State.reset.setRas (0x000C :: List.replicate 15 0)).setRasCount 1).setPc 0x20) 0x1D000000).map
      (fun t => (t.pc, t.rasCount, t.ras.head?)) = some (0x000C, 0, some 0x000C) := by decide

/-- VE11 -/
theorem test_ret_empty :
    faultOf (after (State.reset.setPc 0x20) 0x1D000000) = some (6, ⟨.stackUnderflow, 0x20, 0x1D, 0, 0, 0, 0⟩) := by decide

/-- VF5 -/
theorem test_load_overlapping :
    (after ((withReg 16 0x1122).writeReg 17 0x3344) 0x1E100011).map (fun t => (t.readReg 16, t.pc)) = some (0x2233, 0x0004) := by decide

/-- VF2 -/
theorem test_load_byte :
    (after (heap (withReg 0 0) 0xABCD) 0x1E004200).map (fun t => (t.readReg 0, t.pc)) = some (0xAB, 0x0004) := by decide

/-- VF9 -/
theorem test_store_byte :
    (after ((withReg 0 0x7E).writeN 0x4202 2 0x1122) 0x1F004202).map (fun t => (t.byte 0x4202, t.byte 0x4203)) = some (0x7E, 0x22) := by decide

/-- VF11 -/
theorem test_store_into_program :
    faultOf (after (withReg 16 0xAAAA) 0x1F1001FF) = some (3, ⟨.outOfBounds, 0, 0x1F, 0x10, 0x01, 0xFF, 0x01FF⟩) := by decide

/-- VF20 -/
theorem test_mov_byte_register :
    (after (State.reset) 0x20001234).map (fun t => (t.readReg 0, t.pc)) = some (0x34, 0x0004) := by decide

/-- VF21: Esp is not the stack cursor -/
theorem test_mov_esp :
    (after State.reset 0x201FFFFF).map (fun t => (t.readReg 31, t.sp)) = some (0xFFFF, 0x0200) := by decide

/-- VG2 -/
theorem test_in_zero_extends :
    (after ((withReg 16 0xFFFF).setInStream [0x80]) 0x21100000).map (fun t => (t.readReg 16, t.inPos)) = some (0x0080, 1) := by decide

/-- VG3 -/
theorem test_in_exhausted :
    faultOf (after (withReg 0 0x55) 0x21000000) = some (8, ⟨.ioError, 0, 0x21, 0, 0, 0, 0⟩) := by decide

/-- VG4 -/
theorem test_out_low_byte :
    (after (withReg 17 0x2468) 0x22110000).map (·.out) = some [0x68] := by decide

/-- VG6 -/
theorem test_lab :
    (after (State.reset.setPc 0x10) 0x23010203).map (·.pc) = some 0x0014 := by decide

/-- VG7, S8 -/
theorem test_nop :
    (after State.reset 0x00000000).map (fun t => (t.pc, t.readN 0x0030 2, t.flag)) = some (0x0004, 0x0004, false) := by decide

/-- VG9 -/
theorem test_sys :
    faultOf (after (State.reset.setPc 4) 0x24000000) = some (2, ⟨.unimplementedOpcode, 4, 0x24, 0, 0, 0, 0x0204⟩) := by decide

/-- VG10 -/
theorem test_halt :
    (after (State.reset.setPc 4) 0x25000007).map (fun t => (t.state, t.exitCode, t.pc, t.readN 0x0030 2, t.fault)) =
      some (.halted, 7, 0x0008, 0x0008, .zero) := by decide

/-- VG14 -/
theorem test_illegal_opcode :
    faultOf (after (State.reset) 0x26010203) = some (1, ⟨.invalidOpcode, 0, 0x26, 0x01, 0x02, 0x03, 0x0200⟩) := by decide

/-- VE15, VE16: a fetch that would end outside the program segment, and the wrap of the info (rule R72, C14). -/
theorem test_fetch_bounds :
    (step ((State.reset.setState .running).setPc 0x3FFD) = .next ((State.reset.setState .running).setPc 0x3FFD).fetchFault) ∧
      ((State.reset.setState .running).setPc 0x3FFD).fetchFault.fault = ⟨.outOfBounds, 0x3FFD, 0, 0, 0, 0, 0x41FD⟩ ∧
      ((State.reset.setState .running).setPc 0xFFFE).fetchFault.fault = ⟨.outOfBounds, 0xFFFE, 0, 0, 0, 0, 0x01FE⟩ :=
  ⟨rfl, by decide, by decide⟩

/-- P1 (S4): load, run, two steps: Halted, exit status 7, R0 = 3. -/
theorem test_program_p1 :
    (match State.reset.load (imageOf OpcodeTable.default [.mov 0 3, .halt 0 7]) with
     | .ok s => (match s.run with
       | .ok t => ((runFor 3 t).outcome, (runFor 3 t).readReg 0, (runFor 3 t).pc)
       | .error _ => (none, 0, 0))
     | .error _ => (none, 0, 0)) = (some (.exit 7), 3, 0x0008) := by decide

/-- R258, R286: an unreadable image is reported as IOError and `fault` is not written; after a load that was made nothing changes. -/
theorem test_load_errors :
    (Session.fresh .cfg0 []).apply .loadUnreadable = (⟨State.reset, false, true⟩, some .ioError) ∧
      (Session.fresh .cfg0 []).apply (.loadBlock 4 [0x25]) = (⟨State.reset, false, true⟩, some .sizeMismatch) ∧
      ((⟨State.reset, true, false⟩ : Session).apply .loadUnreadable) = (⟨State.reset, true, false⟩, some .notAllowed) := by decide

/-- S1, R90, R91: printing, and parsing with missing operands zero. -/
theorem test_asm_text :
    Asm.format (.add 16 0x4200) = ['A', 'D', 'D', ' ', '1', '6', ' ', '6', '6', ' ', '0'] ∧
      Asm.parse ['M', 'O', 'V', ' ', '1', '6', ' ', '1', '8', ' ', '5', '2'] = .ok (.mov 16 0x1234) ∧
      Asm.parse ['R', 'E', 'T'] = .ok (.ret 0 0 0) ∧
      Asm.parse ['r', 'e', 't'] = .error .unknownMnemonic := by decide

/-! ### Witnesses: for every obligation with hypotheses, states and operands that meet those of each clause -/

/-- The reset state with this word at the entry point, Running. -/
def ready (w : Nat) : State := State.reset.withFetchWord 32 w

/-- The same at the last offset that can be fetched from. -/
def lastRecord (w : Nat) : State := (State.reset.setPc 0x3FFC).withFetchWord 32 w

/-- A legal opcode table other than the default: ADD has the number 0xFF. -/
def otherTable : OpcodeTable := OpcodeTable.default.set 1 0xFF

/-- The smallest legal configuration. -/
def smallConfig : Config := ⟨50, 1, 4, 0, 0, 0, 1, otherTable⟩

/-- A first illegal index, the first address past the buffer, the last one inside it. -/
theorem witness_AddSubMulWrapAtTheRegisterWidth :
    (32 ≤ (32 : Byte).toNat) ∧
    ((31 : Byte).toNat < 32 ∧ State.reset.cfg.memSize < (0xC4FF : Word).toNat + 2) ∧
    ((31 : Byte).toNat < 32 ∧ (0xC4FE : Word).toNat + 2 ≤ State.reset.cfg.memSize) := by decide

/-- A first illegal index, the first address past the buffer, the last one inside it. With a zero and with a non-zero divisor. -/
theorem witness_DivModAreUnsignedOrDivideByZero :
    (32 ≤ (32 : Byte).toNat) ∧
    ((31 : Byte).toNat < 32 ∧ State.reset.cfg.memSize < (0xC4FF : Word).toNat + 2) ∧
    ((15 : Byte).toNat < 32 ∧ (0xC4FE : Word).toNat + 2 ≤ State.reset.cfg.memSize) ∧
    operandAt State.reset (0xC4FE : Word).toNat = 0 ∧
    operandAt (State.reset.writeN 0xC4FE 2 0x0100) (0xC4FE : Word).toNat ≠ 0 := by decide

/-- First illegal and last legal index. -/
theorem witness_IncDecWrapAtTheRegisterWidth :
    (32 ≤ (32 : Byte).toNat) ∧ (31 : Byte).toNat < 32 := by decide

/-- A first illegal index, the first address past the buffer, the last one inside it. -/
theorem witness_AndOrXorAreBitwise :
    (32 ≤ (32 : Byte).toNat) ∧
    ((0 : Byte).toNat < 32 ∧ State.reset.cfg.memSize < (0xC4FF : Word).toNat + 2) ∧
    ((16 : Byte).toNat < 32 ∧ (0xC4FE : Word).toNat + 2 ≤ State.reset.cfg.memSize) := by decide

/-- First illegal and last legal index. -/
theorem witness_NotComplementsTheRegister :
    (32 ≤ (0x20 : Byte).toNat) ∧ (0x1F : Byte).toNat < 32 := by decide

/-- A first illegal index, the first address past the buffer, the last one inside it. -/
theorem witness_ShiftsUseTheMaskedCount :
    (32 ≤ (32 : Byte).toNat) ∧
    ((15 : Byte).toNat < 32 ∧ State.reset.cfg.memSize < (0xC4FF : Word).toNat + 2) ∧
    ((31 : Byte).toNat < 32 ∧ (0xC4FE : Word).toNat + 2 ≤ State.reset.cfg.memSize) := by decide

/-- A first illegal index, the first address past the buffer, the last one inside it. -/
theorem witness_ComparisonsWriteTheFlag :
    (32 ≤ (32 : Byte).toNat) ∧
    ((16 : Byte).toNat < 32 ∧ State.reset.cfg.memSize < (0xC4FF : Word).toNat + 2) ∧
    ((0 : Byte).toNat < 32 ∧ (0xC4FE : Word).toNat + 2 ≤ State.reset.cfg.memSize) := by decide

/-- Both widths, one byte short of room and with exactly enough. -/
theorem witness_PushStoresTheRegisterBelowTheCursor :
    State.reset.cfg.Legal ∧ (32 ≤ (32 : Byte).toNat) ∧ (31 : Byte).toNat < 32 ∧
    ((State.reset.setSp 0x0101).sp.toNat < State.reset.cfg.stackBase + registerWidth 31) ∧
    (State.reset.cfg.stackBase + registerWidth 31 ≤ (State.reset.setSp 0x0102).sp.toNat) ∧
    ((State.reset.setSp 0x0100).sp.toNat < State.reset.cfg.stackBase + registerWidth 15) ∧
    (State.reset.cfg.stackBase + registerWidth 15 ≤ (State.reset.setSp 0x0101).sp.toNat) := by decide

/-- Both widths, one byte short and with exactly enough on the stack. -/
theorem witness_PopMovesTheTopIntoTheRegister :
    State.reset.cfg.Legal ∧ (32 ≤ (32 : Byte).toNat) ∧ (31 : Byte).toNat < 32 ∧
    (State.reset.cfg.stackTop < (State.reset.setSp 0x01FF).sp.toNat + registerWidth 31) ∧
    ((State.reset.setSp 0x01FE).sp.toNat + registerWidth 31 ≤ State.reset.cfg.stackTop) ∧
    (State.reset.cfg.stackTop < (State.reset.setSp 0x0200).sp.toNat + registerWidth 15) ∧
    ((State.reset.setSp 0x01FF).sp.toNat + registerWidth 15 ≤ State.reset.cfg.stackTop) := by decide

/-- The empty stack, the full one, and the two cursors next to them. -/
theorem witness_DupCopiesTheTopByte :
    State.reset.cfg.Legal ∧ State.reset.sp.toNat = State.reset.cfg.stackTop ∧
    (State.reset.setSp 0x0100).sp.toNat = State.reset.cfg.stackBase ∧
    (State.reset.cfg.stackBase < (State.reset.setSp 0x0101).sp.toNat ∧
      (State.reset.setSp 0x01FF).sp.toNat < State.reset.cfg.stackTop) := by decide

/-- Both widths, one byte short and with exactly enough, the cursor in the segment. -/
theorem witness_SwapExchangesRegisterAndTop :
    State.reset.cfg.Legal ∧ (32 ≤ (32 : Byte).toNat) ∧ (31 : Byte).toNat < 32 ∧
    State.reset.cfg.stackBase ≤ (State.reset.setSp 0x0100).sp.toNat ∧
    (State.reset.cfg.stackTop < (State.reset.setSp 0x01FF).sp.toNat + registerWidth 31) ∧
    ((State.reset.setSp 0x01FE).sp.toNat + registerWidth 31 ≤ State.reset.cfg.stackTop) ∧
    (State.reset.cfg.stackTop < (State.reset.setSp 0x0200).sp.toNat + registerWidth 15) ∧
    ((State.reset.setSp 0x01FF).sp.toNat + registerWidth 15 ≤ State.reset.cfg.stackTop) := by decide

/-- A state of the invariant, registers of both widths. -/
theorem witness_StackInstructionsAreThePrimitives :
    State.reset.Inv ∧ (31 : Byte).toNat < 32 ∧ registerWidth 15 = 1 ∧ registerWidth 16 = 2 ∧ registerWidth 31 = 2 := by decide

/-- Two registers of one width, an empty stack, and one with exactly enough room. -/
theorem witness_PushThenPopReturnsTheValue :
    State.reset.cfg.Legal ∧ (16 : Byte).toNat < 32 ∧ (31 : Byte).toNat < 32 ∧ registerWidth 31 = registerWidth 16 ∧
    State.reset.cfg.stackBase + registerWidth 16 ≤ (State.reset.setSp 0x0102).sp.toNat ∧
    State.reset.sp.toNat ≤ State.reset.cfg.stackTop := by decide

/-- A full stack, and one with a single free entry. -/
theorem witness_CallSavesTheNextOffset :
    (State.reset.setRasCount 16).ReturnStackInv ∧ (State.reset.setRasCount 16).rasCount = State.reset.cfg.rasDepth ∧
    (State.reset.setRasCount 15).ReturnStackInv ∧ (State.reset.setRasCount 15).rasCount < State.reset.cfg.rasDepth := by decide

/-- An empty stack, one entry, all entries. -/
theorem witness_RetReturnsToTheNewestOffset :
    State.reset.ReturnStackInv ∧ State.reset.rasCount = 0 ∧ (State.reset.setRasCount 1).ReturnStackInv ∧
    0 < (State.reset.setRasCount 1).rasCount ∧ (State.reset.setRasCount 16).ReturnStackInv := by decide

/-- A single free entry; the state after the CALL has its own return-address stack. -/
theorem witness_RetAfterCallContinuesAfterTheCall :
    (State.reset.setRasCount 15).ReturnStackInv ∧ (State.reset.setRasCount 15).rasCount < State.reset.cfg.rasDepth ∧
    ∃ t u : State, exec (.call 0 8) (State.reset.setRasCount 15) = .next t ∧ u.ras = t.ras ∧ u.rasCount = t.rasCount := ⟨by decide, by decide, _, _, rfl, rfl, rfl⟩

/-- Both widths, the last address inside the buffer and the first outside. -/
theorem witness_LoadCopiesMemoryIntoTheRegister :
    (32 ≤ (32 : Byte).toNat) ∧ (31 : Byte).toNat < 32 ∧
    (State.reset.cfg.memSize < (0xC4FF : Word).toNat + registerWidth 31) ∧
    ((0xC4FE : Word).toNat + registerWidth 31 ≤ State.reset.cfg.memSize) ∧
    (State.reset.cfg.memSize < (0xC500 : Word).toNat + registerWidth 15) ∧
    ((0xC4FF : Word).toNat + registerWidth 15 ≤ State.reset.cfg.memSize) := by decide

/-- Past the buffer; the first and last two-byte stores that meet the program segment, and their neighbours. -/
theorem witness_StoreCopiesTheRegisterIntoMemory :
    (32 ≤ (32 : Byte).toNat) ∧ (31 : Byte).toNat < 32 ∧
    (State.reset.cfg.memSize < (0xC4FF : Word).toNat + registerWidth 31) ∧
    ((0x01FF : Word).toNat < State.reset.cfg.progBase + State.reset.cfg.progSize ∧
      State.reset.cfg.progBase < (0x01FF : Word).toNat + registerWidth 31) ∧
    ((0x41FF : Word).toNat < State.reset.cfg.progBase + State.reset.cfg.progSize ∧
      State.reset.cfg.progBase < (0x41FF : Word).toNat + registerWidth 31) ∧
    ((0x4200 : Word).toNat + registerWidth 31 ≤ State.reset.cfg.memSize ∧
      State.reset.cfg.progBase + State.reset.cfg.progSize ≤ (0x4200 : Word).toNat) ∧
    ((0x01FE : Word).toNat + registerWidth 31 ≤ State.reset.cfg.progBase) ∧
    (0x0031 : Word).toNat + 0 ≠ State.reset.mirrorAddress ∧ (0x0032 : Word).toNat + 0 ≠ State.reset.mirrorAddress + 1 := by decide

/-- First illegal and last legal index. -/
theorem witness_MovWritesTheImmediate :
    (32 ≤ (32 : Byte).toNat) ∧ (31 : Byte).toNat < 32 := by decide

/-- An exhausted stream, and its last byte. -/
theorem witness_InReadsTheNextInputByte :
    (32 ≤ (32 : Byte).toNat) ∧ (31 : Byte).toNat < 32 ∧ State.reset.inStream.length ≤ State.reset.inPos ∧
    (((State.reset.setInStream [7, 9]).setInPos 1).inStream[1]? = some 9) := by decide

/-- First illegal and last legal index. -/
theorem witness_OutAppendsTheLowByte :
    (32 ≤ (32 : Byte).toNat) ∧ (31 : Byte).toNat < 32 := by decide

/-- The default table, and one that permutes it. -/
theorem witness_DecodeAndEncodeAreInverse :
    OpcodeTable.default.Legal ∧ otherTable.Legal ∧ decodeRecord otherTable ⟨0xFF, 16, 0x42, 0x00⟩ = .ok (.add 16 0x4200) := by decide

/-- The default table, and one that permutes it. -/
theorem witness_AllZeroRecordIsNop :
    OpcodeTable.default.Legal ∧ otherTable.Legal := by decide

/-- The first opcode byte of no mnemonic. -/
theorem witness_IllegalOpcodeFaults :
    (ready 0x26010203).state = .running ∧ (ready 0x26010203).fetch = some ⟨0x26, 0x01, 0x02, 0x03⟩ ∧
    (∀ m, (ready 0x26010203).cfg.opc.byte m ≠ 0x26) := ⟨by decide, by decide, fun m => by cases m <;> decide⟩

/-- One instruction of each format with a register. -/
theorem witness_IllegalRegisterFaultsFirst :
    (Instr.add 32 0xFFFF).registerOperand = some 32 ∧ (Instr.mov 32 0).registerOperand = some 32 ∧
    (Instr.push 0xFF 0).registerOperand = some 0xFF ∧ (32 ≤ (32 : Byte).toNat) ∧ 32 ≤ (0xFF : Byte).toNat := by decide

/-- SYS on a Running CORE. -/
theorem witness_SysRaisesUnimplementedOpcode :
    (ready 0).state = .running ∧ ∃ t, exec (.sys 1 2 3) (ready 0) = .next t ∧ t.state = .faulted ∧
    t.fault.kind = .unimplementedOpcode := ⟨rfl, _, rfl, rfl, rfl⟩

/-- The last record of the program segment. -/
theorem witness_StepRunsTheDecodedInstruction :
    (lastRecord 0x20101234).state = .running ∧ (lastRecord 0x20101234).pc.toNat + 4 ≤ State.reset.cfg.progSize ∧
    decodeRecord (lastRecord 0x20101234).cfg.opc
      ⟨(lastRecord 0x20101234).byte (0x0200 + 0x3FFC), (lastRecord 0x20101234).byte (0x0200 + 0x3FFC + 1),
       (lastRecord 0x20101234).byte (0x0200 + 0x3FFC + 2), (lastRecord 0x20101234).byte (0x0200 + 0x3FFC + 3)⟩ =
      .ok (.mov 16 0x1234) := by decide

/-- The last offset that can be fetched from, and the first that cannot. -/
theorem witness_FetchIsHeldToTheProgramSegment :
    ((State.reset.setPc 0x3FFC).pc.toNat + 4 ≤ State.reset.cfg.progSize) ∧
    ((State.reset.setState .running).setPc 0x3FFD).state = .running ∧
    State.reset.cfg.progSize < ((State.reset.setState .running).setPc 0x3FFD).pc.toNat + 4 := by decide

/-- A step that ends Faulted: SYS, an illegal opcode, and a failed fetch. -/
theorem witness_FaultsLeaveEverythingElseUnchanged :
    (∃ t, step (ready 0x24000000) = .next t ∧ t.state = .faulted) ∧
    (∃ t, step (ready 0x26010203) = .next t ∧ t.state = .faulted) ∧
    ∃ t, step ((State.reset.setState .running).setPc 0x3FFD) = .next t ∧ t.state = .faulted := ⟨⟨_, rfl, rfl⟩, ⟨_, rfl, rfl⟩, ⟨_, rfl, rfl⟩⟩

/-- A step to each end, and host operations that are no reset. -/
theorem witness_EngineTransitionsAreTheThree :
    (∃ t, step (ready 0x00000000) = .next t ∧ t.state = .running) ∧
    (∃ t, step (ready 0x24000000) = .next t ∧ t.state = .faulted) ∧
    (∃ t, step (ready 0x25000007) = .next t ∧ t.state = .halted) ∧
    (∀ input, HostOp.run ≠ .reset input) ∧ ((Session.fresh .cfg0 []).apply .run).1.core.state = .running := ⟨⟨_, rfl, rfl⟩, ⟨_, rfl, rfl⟩, ⟨_, rfl, rfl⟩, ⟨fun _ h => HostOp.noConfusion h, rfl⟩⟩

/-- HALT and NOP, Running. -/
theorem witness_PcAdvancesByFourExceptTransfers :
    (ready 0).state = .running ∧ (∃ t, exec (.halt 0 7) (ready 0) = .next t ∧ t.state ≠ .faulted) ∧
    isTransfer (.halt 0 7) = false ∧ (∃ t, exec (.nop 0 0 0) (ready 0) = .next t ∧ t.state ≠ .faulted) ∧
    isTransfer (.nop 0 0 0) = false := ⟨rfl, ⟨_, rfl, by decide⟩, rfl, ⟨_, rfl, by decide⟩, rfl⟩

/-- A conditional jump for the first clause, a LOAD for both. -/
theorem witness_FlagIsWrittenByComparisonsAndReadByJumps :
    isComparison (.jmpt 0 0) = false ∧ (∃ t, exec (.jmpt 0 0) State.reset = .next t) ∧
    isComparison (.load 0 0) = false ∧ isConditionalJump (.load 0 0) = false := ⟨rfl, ⟨_, rfl⟩, rfl, rfl⟩

/-- SWAP, which does not move it, and PUSH, which does. -/
theorem witness_OnlyStackInstructionsMoveTheCursor :
    State.reset.cfg.Legal ∧ State.reset.CursorInv ∧ (∃ t, exec (.swap 0 0) State.reset = .next t) ∧
    movesCursor (.swap 0 0) = false ∧ ∃ t, exec (.push 16 0) State.reset = .next t ∧ t.sp.toNat + 2 = State.reset.sp.toNat := ⟨by decide, by decide, ⟨_, rfl⟩, rfl, _, rfl, by decide⟩

/-- JMP and PUSH. -/
theorem witness_OnlyCallAndRetUseTheReturnStack :
    usesReturnStack (.jmp 0 0) = false ∧ usesReturnStack (.push 0 0) = false ∧ ∃ t, exec (.jmp 0 0) State.reset = .next t := ⟨rfl, rfl, _, rfl⟩

/-- A STORE just past the segment; the first and last byte of the segment. -/
theorem witness_ProgramTextIsConstant :
    (ready 0x1F104200).Inv ∧ (∃ t, step (ready 0x1F104200) = .next t) ∧
    (State.reset.cfg.progBase ≤ 0x0200 ∧ 0x0200 < State.reset.cfg.progBase + State.reset.cfg.progSize) ∧
    (State.reset.cfg.progBase ≤ 0x41FF ∧ 0x41FF < State.reset.cfg.progBase + State.reset.cfg.progSize) := ⟨by decide, ⟨_, rfl⟩, by decide, by decide⟩

/-- IN with a byte to read, and OUT. -/
theorem witness_StreamsOnlyAdvance :
    (∃ t, step ((ready 0x21100000).setInStream [7]) = .next t ∧ t.inPos = 1) ∧
    ∃ t, step (ready 0x22000000) = .next t ∧ t.out = [0] := ⟨⟨_, rfl, by decide⟩, _, rfl, by decide⟩

/-- Streams with the same next byte and different ones after it; two exhausted streams. -/
theorem witness_InputBeyondTheNextByteIsUnseen :
    (([7, 1] : List Byte)[(State.reset.setInStream [7, 2, 3]).inPos]? = (State.reset.setInStream [7, 2, 3]).inStream[0]?) ∧
    (([9] : List Byte)[((State.reset.setInStream [8]).setInPos 1).inPos]? = ((State.reset.setInStream [8]).setInPos 1).inStream[1]?) := by decide

/-- The first and last register of each width. -/
theorem witness_RegistersReadAndWriteTheirOwnBytes :
    ((0 : Byte).toNat ≤ 15 ∧ (15 : Byte).toNat ≤ 15) ∧ (16 ≤ (16 : Byte).toNat ∧ (16 : Byte).toNat < 32) ∧ 16 ≤ (31 : Byte).toNat ∧ (31 : Byte).toNat < 32 := by decide

/-- The ranges at each edge. -/
theorem witness_MemWriteIsWholeOrNothing :
    ((1 = 1 ∨ 1 = 2) ∧ State.reset.cfg.memSize < 0xC500 + 1) ∧ ((2 = 1 ∨ 2 = 2) ∧ State.reset.cfg.memSize < 0xC4FF + 2) ∧
    (0x01FF < State.reset.cfg.progBase + State.reset.cfg.progSize ∧ State.reset.cfg.progBase < 0x01FF + 2) ∧
    (0x41FF < State.reset.cfg.progBase + State.reset.cfg.progSize ∧ State.reset.cfg.progBase < 0x41FF + 1) ∧
    (0xC4FE + 2 ≤ State.reset.cfg.memSize ∧ State.reset.cfg.progBase + State.reset.cfg.progSize ≤ 0x4200) ∧
    0x01FF + 1 ≤ State.reset.cfg.progBase := by decide

/-- The first and last 16-bit register. -/
theorem witness_MirrorReadsTheOffsetOfTheReader :
    State.reset.cfg.Legal ∧ (ready 0).MirrorInv ∧ (16 ≤ (16 : Byte).toNat ∧ (16 : Byte).toNat < 32) ∧
    16 ≤ (31 : Byte).toNat ∧ (31 : Byte).toNat < 32 := by decide

/-- CFG0, and the smallest legal configuration. -/
theorem witness_ResetLeavesTheSpecValues :
    (Session.fresh .cfg0 [1]).core.cfg.Legal ∧ (Session.fresh smallConfig []).core.cfg.Legal := by decide

/-- The last register. -/
theorem witness_RegistersReadZeroAfterReset :
    (31 : Byte).toNat < 32 := by decide

/-- CFG0, and the smallest legal configuration. -/
theorem witness_ResetSatisfiesTheInvariant :
    Config.cfg0.Legal ∧ smallConfig.Legal := by decide

/-- A state of the invariant with a step, on both configurations. -/
theorem witness_EveryStepKeepsTheInvariant :
    ((ready 0x14100000).Inv ∧ ∃ t, step (ready 0x14100000) = .next t) ∧
    ((State.resetWith smallConfig []).withFetchWord 32 0x14000000).Inv ∧
      ∃ t, step ((State.resetWith smallConfig []).withFetchWord 32 0x14000000) = .next t := ⟨⟨by decide, _, rfl⟩, by decide, _, rfl⟩

/-- The state that run leaves after the load of a program, and the one after its first step. -/
theorem witness_ReachableStatesSatisfyTheInvariant :
    ∃ s t, s.Reachable ∧ step s = .next t ∧ t.Reachable ∧ t.readReg 0 = 3 := 
  have h : (((State.reset.setMem (State.reset.mem.writeBlock 0x0200 [0x20, 0, 0, 3])).setState .running)).Reachable :=
    .start .cfg0 [] [0x20, 0, 0, 3] _ _ (by decide) rfl rfl
  ⟨_, _, h, rfl, .step _ _ h rfl, by decide⟩

/-- The longest image that fits, its last byte, and one byte more. -/
theorem witness_LoadCopiesTheImageOnce :
    State.reset.cfg.Legal ∧ (Session.fresh .cfg0 []).core.state = .loaded ∧ (Session.fresh .cfg0 []).loadDone = false ∧
    (Session.fresh .cfg0 []).startupAborted = false ∧
    (List.replicate 0x4000 (0x25 : Byte)).length ≤ State.reset.cfg.progSize ∧
    (List.replicate 0x4000 (0x25 : Byte))[0x3FFF]? = some 0x25 ∧
    State.reset.cfg.progSize < (List.replicate 0x4001 (0x25 : Byte)).length ∧ ([1, 2] : List Byte).length ≠ 4 ∧
    (⟨ready 0, true, false⟩ : Session).core.state ≠ .loaded := 
  ⟨by decide, rfl, rfl, rfl, by rw [List.length_replicate]; decide,
   List.getElem?_replicate_of_lt (by decide), by rw [List.length_replicate]; decide, by decide, by decide⟩

/-- Loaded and Running sessions, and a refused operation. -/
theorem witness_HostOperationsKeepToTheirStates :
    (Session.fresh .cfg0 []).core.state = .loaded ∧ (Session.fresh .cfg0 []).startupAborted = false ∧
    (⟨ready 0, true, false⟩ : Session).core.state = .running ∧ (⟨ready 0, true, false⟩ : Session).core.state ≠ .loaded ∧
    ((⟨ready 0, true, false⟩ : Session).apply .run).2 = some .notAllowed := by decide

/-- After an unreadable image, and before any load. -/
theorem witness_AbortedStartupLeavesTheResetState :
    (∃ h : Session, h.Reachable ∧ h.startupAborted = true) ∧
    ∃ h : Session, h.Reachable ∧ h.core.state = .loaded ∧ h.loadDone = false := ⟨⟨_, .host _ .loadUnreadable (.fresh .cfg0 [] (by decide)), rfl⟩, _, .fresh .cfg0 [] (by decide), rfl, rfl⟩

/-- The last block of the buffer, the first outside, data of another length; a stopped and a running CORE. -/
theorem witness_BlocksReadBackAndDiagnosticsAreBounded :
    (([1, 2] : List Byte).length = 2 ∧ 0xC4FE + 2 ≤ State.reset.cfg.memSize ∧ ([1, 2] : List Byte)[1]? = some 2) ∧
    (([1, 2] : List Byte).length = 2 ∧ State.reset.cfg.memSize < 0xC4FF + 2) ∧ (([1, 2] : List Byte).length ≠ 3) ∧
    ((State.reset.setState .halted).state = .halted ∧ (State.reset.setState .faulted).state = .faulted) ∧
    (State.reset.state = .loaded ∧ (ready 0).state = .running) := by decide

/-- A stopped and a running CORE. -/
theorem witness_DiagnosticPortShowsTheDedicatedRegisters :
    ((State.reset.setState .halted).state = .halted ∧ (State.reset.setState .faulted).state = .faulted) ∧
    (State.reset.state = .loaded ∧ (ready 0).state = .running) := by decide

end Sys2Proof.Tests
end

section
/-! PROOFS. The state (10_state.md): what every step keeps. Each theorem here follows from what a step can do (step_ends) and from
what an instruction can do (exec_cases). -/

namespace Sys2Proof.Machine

open Sys2Proof State

/-- An instruction's next state is its fault or the completion of its body. -/
theorem ends_of_exec {i : Instr} {s t : State} (h : exec i s = .next t) : Ends i s t := by
  obtain ⟨t', ht', he⟩ := exec_cases i s
  obtain rfl := Host.Outcome.next.inj (h.symm.trans ht')
  exact he

/-- The two ends of a step: a fault of a kind that the CORE raises, or the completion of the decoded instruction's body. -/
theorem step_ends {s t : State} (h : step s = .next t) :
    s.state = .running ∧
      ((∃ b k info, k ≠ .none ∧ k ≠ .sizeMismatch ∧ t = s.takeFault b k info) ∨
        ∃ b i u target, s.fetch = some b ∧ decodeRecord s.cfg.opc b = .ok i ∧ t = u.complete target ∧
          Body i s u target) := by
  obtain ⟨hs, ⟨-, rfl⟩ | ⟨b, -, -, -, rfl⟩ | ⟨b, i, hf, hd, -, he⟩⟩ := step_cases h
  · exact ⟨hs, .inl ⟨_, _, _, by decide, by decide, rfl⟩⟩
  · exact ⟨hs, .inl ⟨b, _, _, by decide, by decide, rfl⟩⟩
  · obtain ⟨k, info, hk, hk', -, rfl⟩ | ⟨u, target, rfl, hb⟩ := he
    · exact ⟨hs, .inl ⟨_, k, info, hk, hk', rfl⟩⟩
    · exact ⟨hs, .inr ⟨b, i, u, target, hf, hd, rfl, hb⟩⟩

/-! ### The invariant -/

theorem State.mirrorInv_complete (u : State) (target : Word) : (u.complete target).MirrorInv :=
  (endsAt_complete u target).2

/-- A fault of a Running CORE keeps the invariant: it changes the record and the engine state only (rule R245). -/
theorem State.Inv.takeFault {s : State} (h : s.Inv) (hs : s.state = .running) {b : Record} {k : FaultKind} {info : Word}
    (hk : k ≠ .none) (hk' : k ≠ .sizeMismatch) : (s.takeFault b k info).Inv := by
  obtain ⟨hL, hm, hc, hr, hi, hp, -, -, he⟩ := h
  exact ⟨hL, hm, hc, hr, hi, hp, fun hf => absurd rfl hf, fun _ => ⟨hk, hk'⟩, fun _ => he (by simp [hs])⟩

/-- A body records no fault, and an exit status only where it halts (rules R29, R244). -/
theorem Body.outcomeInv {i : Instr} {s u : State} {target : Word} (hb : Body i s u target) (hs : s.state = .running)
    (h : s.OutcomeInv) : u.OutcomeInv := by
  obtain ⟨hz, -, he⟩ := h
  have hz' : u.fault = .zero := by rw [hb.fault]; exact hz (by simp [hs])
  obtain ⟨hu, hx⟩ | ⟨hu, -⟩ := hb.engine
  · exact ⟨fun _ => hz', fun hf => by simp [hu, hs] at hf, fun _ => by rw [hx]; exact he (by simp [hs])⟩
  · exact ⟨fun _ => hz', fun hf => by simp [hu] at hf, fun hh => absurd hu hh⟩

theorem Body.inputInv {i : Instr} {s u : State} {target : Word} (hb : Body i s u target) (h : s.InputInv) :
    u.InputInv := by
  have := hb.input
  simp only [InputInv, hb.inStream] at h ⊢
  omega

/-- The completion of an instruction's body keeps the invariant. -/
theorem State.Inv.complete {i : Instr} {s u : State} {target : Word} (h : s.Inv) (hs : s.state = .running)
    (hb : Body i s u target) : (u.complete target).Inv := by
  obtain ⟨hL, hm, hc, hr, hi, -, ho⟩ := h
  have hL' : u.cfg.Legal := hb.cfg ▸ hL
  have hm' := complete_memory (target := target) (hb.memory hL hc hm)
    (by obtain ⟨h1, h2, h3, h4, -, -⟩ := legal_bounds hL'; omega)
  have hc' := (hb.cursor hL hc).1
  have hr' := hb.returnStackInv hr
  have hi' := hb.inputInv hi
  have ho' := hb.outcomeInv hs ho
  exact ⟨by simpa only [complete_cfg] using hL', by simpa only [MemoryInv, complete_cfg] using hm',
    by simpa only [CursorInv, complete_cfg, complete_sp] using hc',
    by simpa only [ReturnStackInv, complete_cfg, complete_ras, complete_rasCount] using hr',
    by simpa only [InputInv, complete_inPos, complete_inStream] using hi', mirrorInv_complete u target,
    by simpa only [OutcomeInv, complete_state, complete_fault, complete_exitCode] using ho'⟩

/-- Settles O51: a step takes a fault or completes a body, and both keep the invariant. -/
theorem everyStepKeepsTheInvariant : Obligations.EveryStepKeepsTheInvariant := by
  intro s t h hst
  obtain ⟨hs, ⟨b, k, info, hk, hk', rfl⟩ | ⟨b, i, u, target, -, -, rfl, hb⟩⟩ := step_ends hst
  · exact h.takeFault hs hk hk'
  · exact h.complete hs hb

/-- The stack segment of a legal configuration ends where a 16-bit address can point: the program segment follows it. -/
theorem stackTop_lt {c : Config} (h : c.Legal) : c.stackTop < 65536 := by
  obtain ⟨-, -, h3, h4, h5, h6⟩ := legal_bounds h
  omega

/-- The reset state of a legal configuration meets the invariant. -/
theorem inv_resetWith {c : Config} (h : c.Legal) (input : List Byte) : (State.resetWith c input).Inv := by
  have hsp : (State.resetWith c input).sp.toNat = c.stackTop := by
    simp only [resetWith, BitVec.toNat_ofNat]
    exact Nat.mod_eq_of_lt (stackTop_lt h)
  have hc : (State.resetWith c input).CursorInv := by
    have hb := (legal_bounds h).2.1
    simp only [CursorInv, hsp]
    exact ⟨by simp only [resetWith]; omega, Nat.le_refl _⟩
  have hm : (State.resetWith c input).MirrorInv := (by decide : joinBytes Memory.unlisted Memory.unlisted = 0)
  exact ⟨h, ⟨rfl, rfl⟩, hc, ⟨List.length_replicate, Nat.zero_le _⟩, Nat.zero_le _, hm, fun _ => rfl, by nofun,
    fun _ => rfl⟩

/-- Settles O50: after reset the cursor is at the top of the stack, and memory, counters and records are zero. -/
theorem resetSatisfiesTheInvariant : Obligations.ResetSatisfiesTheInvariant :=
  ⟨inv_resetWith (by decide) [], fun _ input h => inv_resetWith h input⟩

/-! ### The program counter, the streams and the engine state -/

/-- Settles O38: a completing instruction ends at its body's target, which only a transfer chooses. -/
theorem pcAdvancesByFourExceptTransfers : Obligations.PcAdvancesByFourExceptTransfers := by
  intro i s t _ ht hnf hi
  obtain ⟨k, info, -, -, -, rfl⟩ | ⟨u, target, rfl, hb⟩ := ends_of_exec ht
  · exact absurd rfl hnf
  · rw [complete_pc, hb.target hi]

/-- Settles O43: a fault moves neither stream, and a body moves each by at most one byte. -/
theorem streamsOnlyAdvance : Obligations.StreamsOnlyAdvance := by
  intro s t hst
  obtain ⟨-, ⟨b, k, info, -, -, rfl⟩ | ⟨b, i, u, target, -, -, rfl, hb⟩⟩ := step_ends hst
  · exact ⟨rfl, rfl, .inl rfl, .inl rfl⟩
  · simp only [complete_cfg, complete_inStream, complete_inPos, complete_out]
    exact ⟨hb.cfg, hb.inStream, hb.input.imp_right And.left, hb.output⟩

/-- A step ends Running, Faulted, or Halted, and then its instruction is HALT (rule R28). -/
theorem step_engine {s t : State} (h : step s = .next t) :
    t.state = .running ∨ t.state = .faulted ∨
      (t.state = .halted ∧ ∃ b x status, s.fetch = some b ∧ decodeRecord s.cfg.opc b = .ok (.halt x status)) := by
  obtain ⟨hs, ⟨b, k, info, -, -, rfl⟩ | ⟨b, i, u, target, hf, hd, rfl, hb⟩⟩ := step_ends h
  · exact .inr (.inl rfl)
  · rw [complete_state]
    obtain ⟨hu, -⟩ | ⟨hu, x, status, rfl⟩ := hb.engine
    · exact .inl (hu.trans hs)
    · exact .inr (.inr ⟨hu, b, x, status, hf, hd⟩)

/-- A load, however it ends, keeps the engine state, where the loader's own result does. -/
theorem Session.finishLoad_engine {h : Session} {made : Except HostError State}
    (hm : ∀ s, made = .ok s → s.state = h.core.state) : (h.finishLoad made).1.core.state = h.core.state := by
  obtain ⟨-, e⟩ | ⟨-, -, ⟨s, hs, e⟩ | ⟨_, -, -, e⟩⟩ := finishLoad_cases h made <;> rw [e]
  exact hm s hs

/-- The loader's block write changes memory only. -/
theorem State.loadBlock_engine {s t : State} {size : Nat} {data : List Byte} (h : s.loadBlock size data = .ok t) :
    t.state = s.state := by
  obtain ⟨-, -, -, e⟩ | ⟨-, -, e⟩ | ⟨-, -, -, e⟩ | ⟨-, e⟩ := loadBlock_cases s size data <;> rw [e] at h <;> cases h
  rfl

/-- An unreadable image is never loaded. -/
theorem State.loadUnreadable_ne_ok (s t : State) : s.loadUnreadable ≠ .ok t := by
  obtain ⟨-, e⟩ | ⟨-, e⟩ := loadUnreadable_cases s <;> rw [e] <;> nofun

/-- `run` is refused, or takes a Loaded CORE to Running (rule R288). -/
theorem Session.apply_run_engine (h : Session) :
    (h.apply .run).1.core.state = h.core.state ∨
      (h.core.state = .loaded ∧ (h.apply .run).1.core.state = .running) := by
  simp only [Session.apply, State.run]
  by_cases ha : h.startupAborted = true
  · simp [ha]
  · by_cases hs : h.core.state = .loaded <;> simp [ha, hs]

/-- Supplying input changes the stream only, where it is allowed at all. -/
theorem Session.apply_supply_engine (h : Session) (bytes : List Byte) :
    (h.apply (.supply bytes)).1.core.state = h.core.state := by
  simp only [Session.apply, State.supply]
  by_cases hs : h.core.state = .loaded ∨ h.core.state = .running <;> simp [hs]

/-- A host operation other than reset keeps the engine state, or is the `run` of a Loaded CORE. -/
theorem Session.apply_engine (h : Session) (op : HostOp) (hop : ∀ input, op ≠ .reset input) :
    (h.apply op).1.core.state = h.core.state ∨
      (op = .run ∧ h.core.state = .loaded ∧ (h.apply op).1.core.state = .running) := by
  cases op with
  | reset input => exact absurd rfl (hop input)
  | load image => exact .inl (finishLoad_engine fun _ => loadBlock_engine)
  | loadBlock size data => exact .inl (finishLoad_engine fun _ => loadBlock_engine)
  | loadUnreadable => exact .inl (finishLoad_engine fun _ e => absurd e (loadUnreadable_ne_ok _ _))
  | run => exact (apply_run_engine h).imp_right fun e => ⟨rfl, e⟩
  | supply bytes => exact .inl (apply_supply_engine h bytes)

/-- Settles O37: the ends of a step, the host's operations one by one, and the codes of rule R28. -/
theorem engineTransitionsAreTheThree : Obligations.EngineTransitionsAreTheThree :=
  ⟨fun _ _ hst => ⟨(step_cases hst).1, step_engine hst⟩, Session.apply_engine, fun _ _ => rfl, rfl, rfl, rfl, rfl⟩

/-! ### Registers and the mirror -/

/-- Registers 0 to 15 lie at their index (rule R13). -/
theorem registerAddress_of_le (c : Config) {r : Byte} (h : r.toNat ≤ 15) : registerAddress c r = r.toNat := by
  simp [registerAddress, Config.regBase, h]

/-- Registers 16 to 31 lie two bytes apart from address 16 (rule R13). -/
theorem registerAddress_of_gt (c : Config) {r : Byte} (h : ¬ r.toNat ≤ 15) :
    registerAddress c r = 16 + 2 * (r.toNat - 16) := by
  simp [registerAddress, Config.regBase, h]

theorem State.readN_one_toNat (s : State) (a : Nat) : (s.readN a 1).toNat = (s.byte a).toNat := by
  have := (s.byte a).isLt
  simp only [readN, if_pos, BitVec.toNat_setWidth]
  omega

theorem State.readN_two_toNat (s : State) (a : Nat) :
    (s.readN a 2).toNat = (s.byte a).toNat * 256 + (s.byte (a + 1)).toNat := joinBytes_toNat _ _

/-- A store changes memory only. -/
theorem State.writeN_eq (s : State) (a n : Nat) (v : Word) : s.writeN a n v = { s with mem := (s.writeN a n v).mem } := by
  ext1 <;> simp

/-- Settles O45: a register of either width is the value stored at its address. -/
theorem registersReadAndWriteTheirOwnBytes : Obligations.RegistersReadAndWriteTheirOwnBytes := by
  intro s r v
  refine ⟨fun h => ?_, fun h _ => ?_, writeN_eq s _ _ v⟩
  · simp only [readReg, writeReg, registerAddress_of_le s.cfg h, registerWidth_of_le h]
    exact ⟨readN_one_toNat s _, by simp [byte_writeN_one], fun k hk => by simp [byte_writeN_one, hk]⟩
  · have hg : ¬ r.toNat ≤ 15 := by omega
    have e : 17 + 2 * (r.toNat - 16) = 16 + 2 * (r.toNat - 16) + 1 := by omega
    simp only [readReg, writeReg, registerAddress_of_gt s.cfg hg, registerWidth_of_gt hg, e]
    exact ⟨readN_two_toNat s _, by simp [byte_writeN_two], by simp [byte_writeN_two],
      fun k hk hk' => by simp [byte_writeN_two, hk, hk']⟩

/-- A LOAD with a legal register from an address in the buffer completes (rule R201). -/
theorem exec_load_of_legal {s : State} {r : Byte} {a : Word} (hr : r.toNat < 32)
    (ha : a.toNat + registerWidth r ≤ s.cfg.memSize) :
    exec (.load r a) s = .next (s.writeReg r (s.readN a.toNat (registerWidth r))).advance := by
  simp only [exec, execLoad]
  obtain ⟨-, e⟩ | ⟨h, -⟩ := withRegister_cases s (s.bytesOf (.load r a)) r
    (s.withMemory (s.bytesOf (.load r a)) a (registerWidth r) fun v => (s.writeReg r v).advance)
  · obtain ⟨-, e'⟩ | ⟨h, -⟩ := withMemory_cases s (s.bytesOf (.load r a)) a (registerWidth r)
      fun v => (s.writeReg r v).advance
    · rw [e, e']
    · omega
  · omega

/-- Settles O47: the mirror is written last, so the LOAD reads the value it had before, its own `pc`. -/
theorem mirrorReadsTheOffsetOfTheReader : Obligations.MirrorReadsTheOffsetOfTheReader := by
  intro s r hL hm h16 h32
  have hw : registerWidth r = 2 := registerWidth_of_gt (by omega)
  have ha : (BitVec.ofNat 16 s.mirrorAddress).toNat = s.mirrorAddress := by simp [mirrorAddress, Config.regBase]
  have hin : s.mirrorAddress + 2 ≤ s.cfg.memSize := by
    obtain ⟨h1, h2, h3, h4, -, -⟩ := legal_bounds hL
    simp only [mirrorAddress, Config.regBase]
    omega
  refine ⟨_, exec_load_of_legal h32 (by rw [ha, hw]; exact hin), ?_, (endsAt_advance _).2⟩
  rw [advance, readReg_complete _ _ h32, readReg_writeReg, if_neg (by omega), ha, hw]
  exact hm

end Sys2Proof.Machine
end

section
/-! PROOFS. Non-interference (10_state.md sections 5 and 6): an instruction does exactly the same under an update of what it does
not use. The update commutes with every operand form (Inert), and so with every instruction (Unused.exec_eq). -/

namespace Sys2Proof.Machine

open Sys2Proof State

theorem Inert.comp {f g : State → State} (hf : Inert f) (hg : Inert g) : Inert fun s => f (g s) where
  cfg s := by rw [hf.cfg, hg.cfg]
  mem s := by rw [hf.mem, hg.mem]
  pc s := by rw [hf.pc, hg.pc]
  sp s := by rw [hf.sp, hg.sp]
  setMem s v := by rw [hf.setMem, hg.setMem]
  setPc s v := by rw [hf.setPc, hg.setPc]
  setSp s v := by rw [hf.setSp, hg.setSp]
  setFault s v := by rw [hf.setFault, hg.setFault]
  setState s v := by rw [hf.setState, hg.setState]
  setExitCode s v := by rw [hf.setExitCode, hg.setExitCode]
  setInPos s v := by rw [hf.setInPos, hg.setInPos]
  setOut s v := by rw [hf.setOut, hg.setOut]

namespace Inert

variable {f : State → State} (h : Inert f) (s : State)
include h

/-! ### The operand forms commute with an inert update -/

theorem faults (i : Instr) (k : FaultKind) (info : Word) :
    (f s).takeFault ((f s).bytesOf i) k info = f (s.takeFault (s.bytesOf i) k info) := by rw [h.bytesOf, h.takeFault]

theorem withRegister (i : Instr) (r : Byte) {k k' : State} (hk : k' = f k) :
    (f s).withRegister ((f s).bytesOf i) r k' = f (s.withRegister (s.bytesOf i) r k) := by
  unfold State.withRegister
  rw [h.faults, hk]
  split <;> rfl

theorem withMemory (i : Instr) (a : Word) (n : Nat) {k k' : Word → State} (hk : ∀ v, k' v = f (k v)) :
    (f s).withMemory ((f s).bytesOf i) a n k' = f (s.withMemory (s.bytesOf i) a n k) := by
  unfold State.withMemory
  rw [h.memRead, h.faults]
  cases s.memRead a.toNat n with
  | none => rfl
  | some v => exact hk v

theorem withOperands (i : Instr) (r : Byte) (a : Word) {k k' : Word → Word → State} (hk : ∀ v m, k' v m = f (k v m)) :
    (f s).withOperands ((f s).bytesOf i) r a k' = f (s.withOperands (s.bytesOf i) r a k) :=
  h.withRegister s i r (h.withMemory s i a 2 fun m => by rw [h.readReg, hk])

/-- The end that most instructions share: a register write, then completion. -/
theorem writeReg_advance (r : Byte) (v : Word) : ((f s).writeReg r v).advance = f (s.writeReg r v).advance := by
  rw [h.writeReg, h.advance]

theorem accumulate (i : Instr) (r : Byte) (a : Word) (g : Word → Word → Word) :
    (f s).accumulate ((f s).bytesOf i) r a g = f (s.accumulate (s.bytesOf i) r a g) :=
  h.withOperands s i r a fun _ _ => h.writeReg_advance s r _

theorem accumulateNonzero (i : Instr) (r : Byte) (a : Word) (g : Word → Word → Word) :
    (f s).accumulateNonzero ((f s).bytesOf i) r a g = f (s.accumulateNonzero (s.bytesOf i) r a g) :=
  h.withOperands s i r a fun _ _ => by
    rw [h.writeReg_advance, h.faults]
    split <;> rfl

theorem modifyRegister (i : Instr) (r : Byte) (g : Word → Word) :
    (f s).modifyRegister ((f s).bytesOf i) r g = f (s.modifyRegister (s.bytesOf i) r g) :=
  h.withRegister s i r (by rw [h.readReg, h.writeReg_advance])

theorem compareOperands (hw : ∀ s v, (f s).setFlag v = f (s.setFlag v)) (i : Instr) (r : Byte) (a : Word)
    (rel : Word → Word → Bool) :
    (f s).compareOperands ((f s).bytesOf i) r a rel = f (s.compareOperands (s.bytesOf i) r a rel) :=
  h.withOperands s i r a fun _ _ => by rw [hw, h.advance]

/-- A jump on a condition of the flag, where the update keeps the flag. -/
theorem jumpIf (hf : (f s).flag = s.flag) (taken : Bool → Bool) (target : Word) :
    (f s).jumpIf (taken (f s).flag) target = f (s.jumpIf (taken s.flag) target) := by
  unfold State.jumpIf
  rw [hf, h.complete, h.advance]
  split <;> rfl

/-! ### The instructions outside those forms -/

theorem push (r : Byte) (x : Word) : exec (.push r x) (f s) = onNext f (exec (.push r x) s) := by
  refine congrArg Host.Outcome.next (h.withRegister s _ r ?_)
  rw [h.stackHasRoom, h.readReg, h.pushValue, h.advance, h.faults, h.sp]
  split <;> rfl

theorem pop (r : Byte) (x : Word) : exec (.pop r x) (f s) = onNext f (exec (.pop r x) s) := by
  refine congrArg Host.Outcome.next (h.withRegister s _ r ?_)
  rw [h.stackHolds, h.topValue, h.writeReg, h.sp, h.setSp, h.advance, h.faults]
  split <;> rfl

theorem dup (x0 x1 x2 : Byte) : exec (.dup x0 x1 x2) (f s) = onNext f (exec (.dup x0 x1 x2) s) := by
  refine congrArg Host.Outcome.next ?_
  rw [h.sp, h.cfg, h.topValue, h.pushValue, h.advance, h.faults, h.faults]
  split
  · rfl
  · split <;> rfl

theorem swap (r : Byte) (x : Word) : exec (.swap r x) (f s) = onNext f (exec (.swap r x) s) := by
  refine congrArg Host.Outcome.next (h.withRegister s _ r ?_)
  rw [h.stackHolds, h.topValue, h.sp, h.readReg, h.writeN, h.writeReg_advance, h.faults]
  split <;> rfl

theorem load (r : Byte) (a : Word) : exec (.load r a) (f s) = onNext f (exec (.load r a) s) :=
  congrArg Host.Outcome.next
    (h.withRegister s _ r (h.withMemory s _ a _ fun v => h.writeReg_advance s r v))

theorem store (r : Byte) (a : Word) : exec (.store r a) (f s) = onNext f (exec (.store r a) s) := by
  refine congrArg Host.Outcome.next (h.withRegister s _ r ?_)
  rw [h.readReg, h.memWrite]
  cases s.memWrite a.toNat (registerWidth r) (s.readReg r) with
  | none => exact h.faults s _ _ _
  | some t => exact h.advance t

theorem sys (x0 x1 x2 : Byte) : exec (.sys x0 x1 x2) (f s) = onNext f (exec (.sys x0 x1 x2) s) := by
  refine congrArg Host.Outcome.next ?_
  rw [h.opcodeAddress, h.faults]

theorem halt (x : Word) (status : Byte) : exec (.halt x status) (f s) = onNext f (exec (.halt x status) s) := by
  refine congrArg Host.Outcome.next ?_
  rw [h.setExitCode, h.setState, h.advance]

/-- IN, where the update keeps the next byte of the input stream. -/
theorem inp (hp : (f s).inPos = s.inPos) (hn : (f s).inStream[s.inPos]? = s.inStream[s.inPos]?) (r : Byte) (x : Word) :
    exec (.inp r x) (f s) = onNext f (exec (.inp r x) s) := by
  refine congrArg Host.Outcome.next (h.withRegister s _ r ?_)
  rw [hp, hn]
  cases s.inStream[s.inPos]? with
  | none => exact h.faults s _ _ _
  | some b =>
    dsimp only
    rw [h.setInPos, h.writeReg_advance]

/-- OUT, where the update keeps the output stream. -/
theorem out (ho : (f s).out = s.out) (r : Byte) (x : Word) :
    exec (.out r x) (f s) = onNext f (exec (.out r x) s) := by
  refine congrArg Host.Outcome.next (h.withRegister s _ r ?_)
  rw [ho, h.readReg, h.setOut, h.advance]

end Inert

/-! ### Every instruction commutes with an update of what it does not use -/

/-- The update `f` touches nothing that the instruction uses in the state `s`: beside the fields of Inert, it keeps the
output and the next input byte; for a conditional jump it keeps the flag, for a comparison it commutes with the write of the
flag, and for CALL and RET it keeps the return-address stack and commutes with its writes. -/
structure Unused (i : Instr) (f : State → State) (s : State) : Prop where
  inert : Inert f
  inPos : (f s).inPos = s.inPos
  nextInput : (f s).inStream[s.inPos]? = s.inStream[s.inPos]?
  out : (f s).out = s.out
  flagRead : isConditionalJump i = true → (f s).flag = s.flag
  flagWrite : isComparison i = true → ∀ s v, (f s).setFlag v = f (s.setFlag v)
  returnStack : usesReturnStack i = true →
    (f s).ras = s.ras ∧ (f s).rasCount = s.rasCount ∧
      (∀ s v, (f s).setRas v = f (s.setRas v)) ∧ ∀ s n, (f s).setRasCount n = f (s.setRasCount n)

namespace Unused

variable {f : State → State} {s : State}

theorem call {x : Byte} {target : Word} (h : Unused (.call x target) f s) :
    exec (.call x target) (f s) = onNext f (exec (.call x target) s) := by
  obtain ⟨hr, hn, hwr, hwn⟩ := h.returnStack rfl
  refine congrArg Host.Outcome.next ?_
  rw [hr, hn, hwr, hwn, h.inert.complete, h.inert.faults, h.inert.cfg, h.inert.pc]
  split <;> rfl

theorem ret {x0 x1 x2 : Byte} (h : Unused (.ret x0 x1 x2) f s) :
    exec (.ret x0 x1 x2) (f s) = onNext f (exec (.ret x0 x1 x2) s) := by
  obtain ⟨hr, hn, -, hwn⟩ := h.returnStack rfl
  refine congrArg Host.Outcome.next ?_
  rw [hr, hn, hwn, h.inert.complete, h.inert.faults]
  split <;> rfl

/-- Every instruction does exactly the same under an update of what it does not use, but for the update itself. -/
theorem exec_eq {i : Instr} (h : Unused i f s) : exec i (f s) = onNext f (exec i s) := by
  have hi := h.inert
  cases i with
  | nop => exact congrArg Host.Outcome.next (hi.advance s)
  | lab => exact congrArg Host.Outcome.next (hi.advance s)
  | add => exact congrArg Host.Outcome.next (hi.accumulate s _ _ _ _)
  | sub => exact congrArg Host.Outcome.next (hi.accumulate s _ _ _ _)
  | mul => exact congrArg Host.Outcome.next (hi.accumulate s _ _ _ _)
  | and => exact congrArg Host.Outcome.next (hi.accumulate s _ _ _ _)
  | or => exact congrArg Host.Outcome.next (hi.accumulate s _ _ _ _)
  | xor => exact congrArg Host.Outcome.next (hi.accumulate s _ _ _ _)
  | shl => exact congrArg Host.Outcome.next (hi.accumulate s _ _ _ _)
  | shr => exact congrArg Host.Outcome.next (hi.accumulate s _ _ _ _)
  | div => exact congrArg Host.Outcome.next (hi.accumulateNonzero s _ _ _ _)
  | mod => exact congrArg Host.Outcome.next (hi.accumulateNonzero s _ _ _ _)
  | inc => exact congrArg Host.Outcome.next (hi.modifyRegister s _ _ _)
  | dec => exact congrArg Host.Outcome.next (hi.modifyRegister s _ _ _)
  | not => exact congrArg Host.Outcome.next (hi.modifyRegister s _ _ _)
  | mov r imm => exact congrArg Host.Outcome.next (hi.withRegister s _ r (hi.writeReg_advance s r imm))
  | eq => exact congrArg Host.Outcome.next (hi.compareOperands s (h.flagWrite rfl) _ _ _ _)
  | neq => exact congrArg Host.Outcome.next (hi.compareOperands s (h.flagWrite rfl) _ _ _ _)
  | lt => exact congrArg Host.Outcome.next (hi.compareOperands s (h.flagWrite rfl) _ _ _ _)
  | gt => exact congrArg Host.Outcome.next (hi.compareOperands s (h.flagWrite rfl) _ _ _ _)
  | lte => exact congrArg Host.Outcome.next (hi.compareOperands s (h.flagWrite rfl) _ _ _ _)
  | gte => exact congrArg Host.Outcome.next (hi.compareOperands s (h.flagWrite rfl) _ _ _ _)
  | jmp => exact congrArg Host.Outcome.next (hi.complete s _)
  | jmpt => exact congrArg Host.Outcome.next (hi.jumpIf s (h.flagRead rfl) id _)
  | jmpf => exact congrArg Host.Outcome.next (hi.jumpIf s (h.flagRead rfl) Bool.not _)
  | jz => exact congrArg Host.Outcome.next (hi.jumpIf s (h.flagRead rfl) Bool.not _)
  | call => exact h.call
  | ret => exact h.ret
  | push r x => exact hi.push s r x
  | pop r x => exact hi.pop s r x
  | dup x0 x1 x2 => exact hi.dup s x0 x1 x2
  | swap r x => exact hi.swap s r x
  | load r a => exact hi.load s r a
  | store r a => exact hi.store s r a
  | inp r x => exact hi.inp s h.inPos h.nextInput r x
  | out r x => exact hi.out s h.out r x
  | sys x0 x1 x2 => exact hi.sys s x0 x1 x2
  | halt x status => exact hi.halt s x status

end Unused

theorem unused_setFlag {i : Instr} (s : State) (b : Bool) (hc : isComparison i = false)
    (hj : isConditionalJump i = false) : Unused i (fun s => s.setFlag b) s where
  inert := inert_setFlag b
  inPos := rfl
  nextInput := rfl
  out := rfl
  flagRead h := by simp [hj] at h
  flagWrite h := by simp [hc] at h
  returnStack _ := ⟨rfl, rfl, fun _ _ => rfl, fun _ _ => rfl⟩

theorem unused_setReturnStack {i : Instr} (s : State) (l : List Word) (n : Nat) (hu : usesReturnStack i = false) :
    Unused i (fun s => (s.setRas l).setRasCount n) s where
  inert := (inert_setRasCount n).comp (inert_setRas l)
  inPos := rfl
  nextInput := rfl
  out := rfl
  flagRead _ := rfl
  flagWrite _ _ _ := rfl
  returnStack h := by simp [hu] at h

theorem unused_setInStream (i : Instr) (s : State) {input : List Byte} (h : input[s.inPos]? = s.inStream[s.inPos]?) :
    Unused i (fun s => s.setInStream input) s where
  inert := inert_setInStream input
  inPos := rfl
  nextInput := h
  out := rfl
  flagRead _ := rfl
  flagWrite _ _ _ := rfl
  returnStack _ := ⟨rfl, rfl, fun _ _ => rfl, fun _ _ => rfl⟩

/-- Settles O39: a body keeps the flag unless it compares, and the flag's update is one of an unused field. -/
theorem flagIsWrittenByComparisonsAndReadByJumps : Obligations.FlagIsWrittenByComparisonsAndReadByJumps := by
  refine fun i s => ⟨fun t hc ht => ?_, fun b hc hj => (unused_setFlag s b hc hj).exec_eq⟩
  obtain ⟨k, info, -, -, -, rfl⟩ | ⟨u, target, rfl, hb⟩ := ends_of_exec ht
  · rfl
  · rw [complete_flag, hb.flag hc]

/-- Settles O41: a body keeps the return-address stack unless it calls or returns, and its update is one of unused
fields. -/
theorem onlyCallAndRetUseTheReturnStack : Obligations.OnlyCallAndRetUseTheReturnStack := by
  refine fun i s hu => ⟨fun t ht => ?_, fun l n => (unused_setReturnStack s l n hu).exec_eq⟩
  obtain ⟨k, info, -, -, -, rfl⟩ | ⟨u, target, rfl, hb⟩ := ends_of_exec ht
  · exact ⟨rfl, rfl⟩
  · rw [complete_ras, complete_rasCount]
    exact hb.returnStack hu

/-- A step does exactly the same under an inert update that keeps the engine state and that no instruction sees. -/
theorem step_eq_of_unused {f : State → State} {s : State} (hi : Inert f) (hs : (f s).state = s.state)
    (hu : ∀ i, Unused i f s) : step (f s) = onNext f (step s) := by
  unfold step
  rw [hs, hi.fetch, hi.cfg]
  cases s.state with
  | loaded => rfl
  | halted => rfl
  | faulted => rfl
  | running =>
    cases s.fetch with
    | none =>
      refine congrArg Host.Outcome.next ?_
      simp only [fetchFault, hi.opcodeAddress, hi.takeFault]
    | some b =>
      dsimp only
      cases decodeRecord s.cfg.opc b with
      | ok i => exact (hu i).exec_eq
      | error e =>
        refine congrArg Host.Outcome.next ?_
        simp only [illegalOpcode, hi.opcodeAddress, hi.takeFault]

/-- Settles O44: an input stream with the same next byte is an update that no instruction sees. -/
theorem inputBeyondTheNextByteIsUnseen : Obligations.InputBeyondTheNextByteIsUnseen := fun s input h =>
  step_eq_of_unused (inert_setInStream input) rfl fun i => unused_setInStream i s h

end Sys2Proof.Machine
end

section
/-! PROOFS. Memory (20_memory.md): the program segment that no step changes, the store that is made whole or not at all, and
the host's block accesses. -/

namespace Sys2Proof.Machine

open Sys2Proof State

/-! ### The program segment -/

/-- Completion touches no byte past the mirror: the register segment holds it (rule R23). -/
theorem State.byte_complete_of_ge (u : State) (target : Word) {k : Nat} (h : 50 ≤ k) :
    (u.complete target).byte k = u.byte k := by
  have hm : u.mirrorAddress = 48 := by simp [mirrorAddress, Config.regBase]
  rw [byte_complete, if_neg (by omega), if_neg (by omega)]

/-- Settles O42: a fault changes no memory, a body keeps the program segment, and the mirror lies below it. -/
theorem programTextIsConstant : Obligations.ProgramTextIsConstant := by
  intro s t h hst a ha ha'
  obtain ⟨hL, -, hc, -⟩ := h
  obtain ⟨-, ⟨b, k, info, -, -, rfl⟩ | ⟨b, i, u, target, -, -, rfl, hb⟩⟩ := step_ends hst
  · exact byte_takeFault s b k info a
  · have hmirror : 50 ≤ a := by
      obtain ⟨h1, h2, h3, -, -, -⟩ := legal_bounds hL
      omega
    rw [byte_complete_of_ge u target hmirror, hb.program hL hc a ha ha']

/-! ### Stores -/

/-- Settles O46: the two ends of a store, whose conditions exclude each other, and the bytes after a store that is made. -/
theorem memWriteIsWholeOrNothing : Obligations.MemWriteIsWholeOrNothing := by
  intro s a n v hn
  obtain ⟨hin, hoff, e⟩ | ⟨hbad, e⟩ := memWrite_cases s a n v
  · refine ⟨fun hbad => by omega, fun _ _ => ⟨_, e, writeN_eq s a n v, ?_, ?_, fun k hk => byte_writeN_other s v hn hk⟩⟩
    · rintro rfl
      simp [byte_writeN_one]
    · rintro rfl
      simp [byte_writeN_two]
  · exact ⟨fun _ => e, fun hin hoff => by omega⟩

/-! ### Blocks -/

/-- The bytes of a block after it is written. -/
theorem Memory.read_writeBlock_of_getElem? (m : Memory) (a : Nat) {bs : List Byte} {k : Nat} {b : Byte}
    (h : bs[k]? = some b) : (m.writeBlock a bs).read (a + k) = b := by
  obtain ⟨hk, -⟩ := List.getElem?_eq_some_iff.1 h
  rw [read_writeBlock, if_pos (by omega), Nat.add_sub_cancel_left, List.getD_eq_getElem?_getD, h, Option.getD_some]

/-- A block write touches no byte outside its block. -/
theorem Memory.read_writeBlock_other (m : Memory) {a k : Nat} {bs : List Byte} (h : k < a ∨ a + bs.length ≤ k) :
    (m.writeBlock a bs).read k = m.read k := by
  rw [read_writeBlock, if_neg (by omega)]

/-- A block reads back as it was written (rule R61). -/
theorem Memory.readBlock_writeBlock (m : Memory) (a : Nat) (bs : List Byte) :
    (m.writeBlock a bs).readBlock a bs.length = bs := by
  refine List.ext_getElem (length_readBlock _ _ _) fun k _ hk => Option.some_inj.1 ?_
  rw [← List.getElem?_eq_getElem, getElem?_readBlock _ a hk,
    read_writeBlock_of_getElem? m a (List.getElem?_eq_getElem hk)]

/-- A block read gives the bytes of its range, or fails on its bounds (rules R43, R61). -/
theorem State.readBlock_cases (s : State) (a n : Nat) :
    (a + n ≤ s.cfg.memSize ∧ s.readBlock a n = .ok (s.mem.readBlock a n)) ∨
      (s.cfg.memSize < a + n ∧ s.readBlock a n = .error .outOfBounds) := by
  unfold readBlock inBuffer
  by_cases h : a + n ≤ s.cfg.memSize
  · exact .inl ⟨h, by simp [h]⟩
  · exact .inr ⟨by omega, by simp [h]⟩

/-- A block that is written reads back from the state it leaves. -/
theorem State.readBlock_setMem_writeBlock {s : State} {a : Nat} {data : List Byte}
    (h : a + data.length ≤ s.cfg.memSize) :
    (s.setMem (s.mem.writeBlock a data)).readBlock a data.length = .ok data := by
  obtain ⟨-, e⟩ | ⟨h', -⟩ := readBlock_cases (s.setMem (s.mem.writeBlock a data)) a data.length
  · rw [e, setMem_mem, Memory.readBlock_writeBlock]
  · rw [setMem_cfg] at h'
    omega

/-- A block read inside the buffer gives the bytes of its range, in order; past the buffer it fails. -/
theorem State.readBlock_bounded (s : State) (a n : Nat) :
    (a + n ≤ s.cfg.memSize →
      ∃ bytes, s.readBlock a n = .ok bytes ∧ bytes.length = n ∧ ∀ k, k < n → bytes[k]? = some (s.byte (a + k))) ∧
    (s.cfg.memSize < a + n → s.readBlock a n = .error .outOfBounds) := by
  obtain ⟨h, e⟩ | ⟨h, e⟩ := readBlock_cases s a n
  · exact ⟨fun _ => ⟨_, e, Memory.length_readBlock _ _ _, fun k hk => Memory.getElem?_readBlock s.mem a hk⟩,
      fun h' => by omega⟩
  · exact ⟨fun h' => by omega, fun _ => e⟩

/-- The diagnostic port of a stopped CORE is the block read (rule R259). -/
theorem State.diagnosticRead_of_stopped {s : State} (h : s.state = .halted ∨ s.state = .faulted) (a n : Nat) :
    s.diagnosticRead a n = s.readBlock a n := by
  simp [diagnosticRead, stopped, h]

/-- Before the CORE has stopped the diagnostic port is refused (rule R259). -/
theorem State.diagnosticRead_of_not_stopped {s : State} (h : s.state = .loaded ∨ s.state = .running) (a n : Nat) :
    s.diagnosticRead a n = .error .notAllowed := by
  obtain h | h := h <;> simp [diagnosticRead, stopped, h]

/-- Settles O55: the ends of a block write and of a block read; the diagnostic port is that read, or is refused. -/
theorem blocksReadBackAndDiagnosticsAreBounded : Obligations.BlocksReadBackAndDiagnosticsAreBounded := by
  refine ⟨fun s a n data => ?_, readBlock_bounded, fun s a n hs => ?_, fun _ a n hs => diagnosticRead_of_not_stopped hs a n⟩
  · obtain ⟨rfl, hin, e⟩ | ⟨hn, e⟩ | ⟨hn, hout, e⟩ := writeBlock_cases s a n data
    · exact ⟨fun _ _ => ⟨_, e, rfl, fun _ _ => Memory.read_writeBlock_of_getElem? s.mem a,
        fun _ => Memory.read_writeBlock_other s.mem, readBlock_setMem_writeBlock hin⟩,
        fun _ hout => by omega, fun hn => absurd rfl hn⟩
    · exact ⟨fun h => absurd h hn, fun h => absurd h hn, fun _ => e⟩
    · exact ⟨fun _ hin => by omega, fun _ _ => e, fun h => absurd hn h⟩
  · rw [diagnosticRead_of_stopped hs a n]
    exact readBlock_bounded s a n

end Sys2Proof.Machine
end

section
/-! PROOFS. Encoding (30_encoding.md): the decoder and the encoder are inverse, and the three faults that come before an
instruction's own work: the fetch outside the program segment, the illegal opcode byte and the illegal register index. -/

namespace Sys2Proof

/-! ### Operand bytes -/

/-- The operand bytes of every instruction, with its mnemonic, give the instruction back (rules R75, R77). -/
theorem Laws.RecordFields.all : ∀ i, Laws.RecordFields.Statement i
  | .nop x0 x1 x2 => nop x0 x1 x2
  | .add r a => add r a
  | .sub r a => sub r a
  | .mul r a => mul r a
  | .div r a => div r a
  | .mod r a => mod r a
  | .inc r x => inc r x
  | .dec r x => dec r x
  | .and r a => and r a
  | .or r a => or r a
  | .xor r a => xor r a
  | .not r x => not r x
  | .shl r a => shl r a
  | .shr r a => shr r a
  | .eq r a => eq r a
  | .neq r a => neq r a
  | .lt r a => lt r a
  | .gt r a => gt r a
  | .lte r a => lte r a
  | .gte r a => gte r a
  | .push r x => push r x
  | .pop r x => pop r x
  | .dup x0 x1 x2 => dup x0 x1 x2
  | .swap r x => swap r x
  | .jmp x target => jmp x target
  | .jmpt x target => jmpt x target
  | .jmpf x target => jmpf x target
  | .jz x target => jz x target
  | .call x target => call x target
  | .ret x0 x1 x2 => ret x0 x1 x2
  | .load r a => load r a
  | .store r a => store r a
  | .mov r imm => mov r imm
  | .inp r x => inp r x
  | .out r x => out r x
  | .lab x0 x1 x2 => lab x0 x1 x2
  | .sys x0 x1 x2 => sys x0 x1 x2
  | .halt x status => halt x status

@[simp] theorem Instr.ofOperands_operands (i : Instr) :
    Instr.ofOperands i.mnemonic i.operands.1 i.operands.2.1 i.operands.2.2 = i :=
  (Laws.RecordFields.all i OpcodeTable.default).2

@[simp] theorem Instr.mnemonic_ofOperands (m : Mnemonic) (op0 op1 op2 : Byte) :
    (Instr.ofOperands m op0 op1 op2).mnemonic = m := by
  cases m <;> rfl

@[simp] theorem Instr.operands_ofOperands (m : Mnemonic) (op0 op1 op2 : Byte) :
    (Instr.ofOperands m op0 op1 op2).operands = (op0, op1, op2) := by
  cases m with
  | nop | dup | ret | lab | sys => rfl
  | halt => simp [ofOperands, operands]
  | _ => simp [ofOperands, operands]

/-! ### The decoder -/

/-- What decodes is the instruction of the mnemonic looked up, with the record's operand bytes. -/
theorem decodeRecord_eq_ok {t : OpcodeTable} {b : Record} {i : Instr} :
    decodeRecord t b = .ok i ↔ ∃ m, t.lookup b.opc = some m ∧ Instr.ofOperands m b.op0 b.op1 b.op2 = i := by
  unfold decodeRecord
  cases t.lookup b.opc <;> simp

/-- A record fails to decode only where no mnemonic has its opcode byte (rule R78). -/
theorem decodeRecord_eq_error {t : OpcodeTable} {b : Record} {e : DecodeError} :
    decodeRecord t b = .error e ↔ (∀ m, t.byte m ≠ b.opc) ∧ .invalidOpcode b.opc = e := by
  rw [← OpcodeTable.lookup_eq_none]
  unfold decodeRecord
  cases t.lookup b.opc <;> simp

theorem decodeRecord_encode {t : OpcodeTable} (h : t.Legal) (i : Instr) : decodeRecord t (encode t i) = .ok i :=
  decodeRecord_eq_ok.2 ⟨i.mnemonic, OpcodeTable.lookup_byte h i.mnemonic, Instr.ofOperands_operands i⟩

theorem encode_of_decodeRecord {t : OpcodeTable} {b : Record} {i : Instr} (h : decodeRecord t b = .ok i) :
    encode t i = b := by
  obtain ⟨m, hm, rfl⟩ := decodeRecord_eq_ok.1 h
  simp [encode, OpcodeTable.byte_of_lookup hm]

/-- The decoder reads one record and leaves what follows it (rule R70). -/
theorem decode_bytes_append {t : OpcodeTable} {b : Record} {i : Instr} (h : decodeRecord t b = .ok i)
    (rest : List Byte) : decode t (b.bytes ++ rest) = .ok (i, rest) := by
  simp [decode, Record.bytes, h]

/-- Settles O27: the operand bytes and the instruction determine each other, and so do mnemonic and opcode byte under a
legal table. -/
theorem decodeAndEncodeAreInverse : Obligations.DecodeAndEncodeAreInverse := fun _ ht =>
  ⟨decodeRecord_encode ht, fun _ _ => encode_of_decodeRecord,
    fun i => decode_bytes_append (decodeRecord_encode ht i), fun _ => rfl⟩

/-- Settles O29: under a legal table the all-zero record is the encoding of NOP 0 0 0. -/
theorem allZeroRecordIsNop : Obligations.AllZeroRecordIsNop := by
  intro t ht
  have h : encode t (.nop 0 0 0) = ⟨0, 0, 0, 0⟩ := congrArg (Record.mk · 0 0 0) ht.2
  exact h ▸ decodeRecord_encode ht (.nop 0 0 0)

/-- Settles O28, by running the decoder on the seven words. -/
theorem specWordsDecode : Obligations.SpecWordsDecode := by
  unfold Obligations.SpecWordsDecode
  decide

/-! ### The bytes of the default table -/

/-- The default table numbers the mnemonics by their position (rule R76). -/
theorem OpcodeTable.default_byte_toNat (m : Mnemonic) : (OpcodeTable.default.byte m).toNat = m.position := by
  cases m <;> rfl

/-- Every position of the table is a mnemonic's. -/
theorem Mnemonic.exists_position (k : Fin 38) : ∃ m : Mnemonic, m.position = k :=
  have h : ∀ k : Fin 38, ∃ m ∈ Mnemonic.all, m.position = k := by decide
  let ⟨m, _, hm⟩ := h k
  ⟨m, hm⟩

/-- The bytes of no mnemonic under the default table are 0x26 to 0xFF (rule R78). -/
theorem OpcodeTable.default_byte_ne_iff (b : Byte) : (∀ m, OpcodeTable.default.byte m ≠ b) ↔ 0x26 ≤ b.toNat := by
  constructor
  · intro h
    by_contra hb
    obtain ⟨m, hm⟩ := Mnemonic.exists_position ⟨b.toNat, by omega⟩
    exact h m (BitVec.eq_of_toNat_eq (by rw [default_byte_toNat, hm]))
  · rintro h m rfl
    have := m.position.isLt
    rw [default_byte_toNat] at h
    omega

end Sys2Proof

namespace Sys2Proof.Machine

open Sys2Proof State

/-! ### Faults before execution -/

/-- A fetch that fails is the whole step (rules R72, R290). -/
theorem step_of_fetch_none {s : State} (hs : s.state = .running) (hf : s.fetch = none) :
    step s = .next s.fetchFault := by
  simp [step, hs, hf]

/-- So is a record that does not decode (rules R78, R290). -/
theorem step_of_decode_error {s : State} {b : Record} {e : DecodeError} (hs : s.state = .running)
    (hf : s.fetch = some b) (hd : decodeRecord s.cfg.opc b = .error e) : step s = .next (s.illegalOpcode b) := by
  simp [step, hs, hf, hd]

/-- Settles O34: the two cases of the fetch; the fault's info is recorded in 16 bits. -/
theorem fetchIsHeldToTheProgramSegment : Obligations.FetchIsHeldToTheProgramSegment := by
  refine fun s => ⟨fetch_eq, fun hs h => ?_⟩
  have hinfo : s.opcodeAddress = BitVec.ofNat 16 ((s.cfg.progBase + s.pc.toNat) % 65536) :=
    BitVec.eq_of_toNat_eq (by simp [opcodeAddress])
  rw [step_of_fetch_none hs (fetch_none h), fetchFault, takeFault_eq_afterFault, hinfo]
  rfl

/-- Settles O30: a record fails to decode exactly where no mnemonic has its opcode byte. -/
theorem illegalOpcodeFaults : Obligations.IllegalOpcodeFaults := by
  refine ⟨fun s b hs hf hm => step_of_decode_error hs hf (decodeRecord_eq_error.2 ⟨hm, rfl⟩), fun b => ?_⟩
  rw [decodeRecord_eq_error, and_iff_left rfl, OpcodeTable.default_byte_ne_iff]

/-- An instruction with a register operand is the register check around the rest of its meaning (rule R251 step 4). -/
theorem exec_eq_withRegister {i : Instr} {r : Byte} (s : State) (h : i.registerOperand = some r) :
    ∃ k, exec i s = .next (s.withRegister (s.bytesOf i) r k) := by
  cases i with
  | nop | lab | dup | ret | sys | halt | jmp | jmpt | jmpf | jz | call => cases h
  | _ =>
    cases h
    exact ⟨_, rfl⟩

/-- Settles O31: the register check stands around everything else. -/
theorem illegalRegisterFaultsFirst : Obligations.IllegalRegisterFaultsFirst := by
  intro i r s h hr
  obtain ⟨k, hk⟩ := exec_eq_withRegister s h
  obtain ⟨hr', -⟩ | ⟨-, e⟩ := withRegister_cases s (s.bytesOf i) r k
  · omega
  · exact hk.trans (congrArg _ e)

end Sys2Proof.Machine
end

section
/-! PROOFS. The assembly text form (30_encoding.md, rules R90 and R91): tokens of a printed line, decimal bytes, and the round
trip of printing and parsing. -/

namespace Sys2Proof.Asm

open Sys2Proof

/-! ### Tokens -/

/-- A piece that holds no separator is not split. -/
theorem splitAt_eq_singleton {p : Char → Bool} {w : List Char} (h : ∀ c ∈ w, p c = false) : splitAt p w = [w] := by
  induction w with
  | nil => rfl
  | cons c w ih =>
    rw [List.forall_mem_cons] at h
    simp [splitAt, h.1, ih h.2]

/-- The piece before the first separator is split off. -/
theorem splitAt_append_cons {p : Char → Bool} {w : List Char} {c : Char} (h : ∀ c ∈ w, p c = false) (hc : p c = true)
    (cs : List Char) : splitAt p (w ++ c :: cs) = w :: splitAt p cs := by
  induction w with
  | nil => simp [splitAt, hc]
  | cons d w ih =>
    rw [List.forall_mem_cons] at h
    simp [splitAt, h.1, ih h.2]

/-- A word that can stand as a token of a line: some characters, none of them blank. -/
def IsToken (w : List Char) : Prop := w ≠ [] ∧ ∀ c ∈ w, isBlank c = false

theorem tokens_of_isToken {w : List Char} (h : IsToken w) : tokens w = [w] := by
  simp [tokens, splitAt_eq_singleton h.2, h.1]

theorem tokens_append_space {w : List Char} (h : IsToken w) (cs : List Char) :
    tokens (w ++ ' ' :: cs) = w :: tokens cs := by
  simp [tokens, splitAt_append_cons h.2 (by decide : isBlank ' ' = true) cs, h.1]

/-! ### Mnemonics -/

theorem isToken_mnemonicText (m : Mnemonic) : IsToken (mnemonicText m) := by
  constructor
  · cases m <;> exact List.cons_ne_nil _ _
  · cases m <;> simp [mnemonicText, isBlank]

theorem parseMnemonic_mnemonicText (m : Mnemonic) : parseMnemonic (mnemonicText m) = some m := by
  cases m <;> rfl

/-! ### Decimal bytes -/

theorem isBlank_digit {d : Nat} (h : d < 10) : isBlank (digit d) = false := by
  revert d
  decide

theorem digitValue_digit {d : Nat} (h : d < 10) : digitValue (digit d) = some d := by
  revert d
  decide

/-- Digits are read as a number from the left. -/
theorem numberFrom_map_digit {ds : List Nat} (h : ∀ d ∈ ds, d < 10) (n : Nat) :
    numberFrom n (ds.map digit) = some (ds.foldl (fun n d => 10 * n + d) n) := by
  induction ds generalizing n with
  | nil => rfl
  | cons d ds ih =>
    rw [List.forall_mem_cons] at h
    simp [numberFrom, digitValue_digit h.1, ih h.2]

/-- A printed byte is some digits, and their number is the byte's value (rule R91). -/
theorem decimal_eq_map_digit (b : Byte) :
    ∃ ds : List Nat, decimal b = ds.map digit ∧ ds ≠ [] ∧ (∀ d ∈ ds, d < 10) ∧
      ds.foldl (fun n d => 10 * n + d) 0 = b.toNat := by
  have hb := b.isLt
  unfold decimal
  dsimp only
  split_ifs with h1 h2
  · exact ⟨[b.toNat], rfl, by simp, by simp [h1], by simp⟩
  · refine ⟨[b.toNat / 10, b.toNat % 10], rfl, by simp, ?_, ?_⟩ <;> simp <;> omega
  · refine ⟨[b.toNat / 100, b.toNat / 10 % 10, b.toNat % 10], rfl, by simp, ?_, ?_⟩ <;> simp <;> omega

theorem isToken_decimal (b : Byte) : IsToken (decimal b) := by
  obtain ⟨ds, e, hne, hd, -⟩ := decimal_eq_map_digit b
  rw [e]
  exact ⟨by simpa using hne, by simpa using fun d h => isBlank_digit (hd d h)⟩

theorem numberFrom_decimal (b : Byte) : numberFrom 0 (decimal b) = some b.toNat := by
  obtain ⟨ds, e, -, hd, hv⟩ := decimal_eq_map_digit b
  rw [e, numberFrom_map_digit hd, hv]

theorem operand_decimal (b : Byte) : operand (decimal b) = .ok b := by
  have hb : b.toNat ≤ 255 := by have := b.isLt; omega
  simp [operand, numberFrom_decimal, hb]

/-! ### Lines -/

theorem tokens_format (i : Instr) :
    tokens (format i) =
      [mnemonicText i.mnemonic, decimal i.operands.1, decimal i.operands.2.1, decimal i.operands.2.2] := by
  simp only [format, List.append_assoc, List.cons_append, tokens_append_space, isToken_mnemonicText, isToken_decimal,
    tokens_of_isToken]

theorem parse_format (i : Instr) : parse (format i) = .ok i := by
  simp [parse, tokens_format, parseMnemonic_mnemonicText, operandBytes, operand_decimal]

/-- Settles O32: the printed line has four tokens, and each is read back as what it was printed from. -/
theorem assemblyTextRoundTrip : Obligations.AssemblyTextRoundTrip := ⟨parse_format, fun _ => rfl⟩

end Sys2Proof.Asm
end

section
/-! PROOFS. Arithmetic (40_arithmetic.md). What an instruction of each accumulator form does (binaryRule_of_accumulate,
divisionRule_of_accumulateNonzero, unaryRule_of_modifyRegister) is proved once; an instruction adds its 16-bit result, reduced to
the register's width. -/

namespace Sys2Proof.Machine

open Sys2Proof State Claims

/-! ### A register as a number of its width -/

theorem bits_eq (r : Byte) : bits r = 8 ∨ bits r = 16 :=
  (registerWidth_eq r).imp (congrArg (8 * ·)) (congrArg (8 * ·))

/-- A register write stores the value modulo 2 to the register's width (rule R17). -/
theorem State.readReg_writeReg_toNat (s : State) (r : Byte) (v : Word) :
    ((s.writeReg r v).readReg r).toNat = v.toNat % 2 ^ bits r := by
  have := v.isLt
  rw [readReg_writeReg, bits]
  obtain h | h := registerWidth_eq r
  · rw [h, if_pos rfl, BitVec.toNat_setWidth, loByte_toNat]
    omega
  · rw [h, if_neg (by decide)]
    omega

/-- A register holds a number of its width (rule R16). -/
theorem State.readReg_toNat_lt (s : State) (r : Byte) : (s.readReg r).toNat < 2 ^ bits r := by
  rw [bits, readReg]
  obtain h | h := registerWidth_eq r <;> rw [h]
  · rw [readN_one_toNat]
    exact (s.byte _).isLt
  · exact (s.readN _ 2).isLt

/-! ### The accumulator forms -/

/-- An instruction whose last act is to write a register, before it completes (rules R17, R22, R23). -/
theorem State.writeReg_advance_rule (s : State) {r : Byte} (hr : r.toNat < 32) (v : Word) :
    ((s.writeReg r v).advance.readReg r).toNat = v.toNat % 2 ^ bits r ∧
      OnlyRegister s (s.writeReg r v).advance r ∧ (s.writeReg r v).advance.EndsAt (s.pc + 4) := by
  have e : (s.writeReg r v).advance = (s.writeReg r v).complete (s.pc + 4) := by rw [advance, writeReg_pc]
  rw [e]
  refine ⟨?_, ⟨?_, sameRegistersBut_writeReg_complete hr v _, sameMemoryBut_writeReg_complete r v _⟩,
    endsAt_complete _ _⟩
  · rw [readReg_complete _ _ hr, readReg_writeReg_toNat]
  · ext1 <;> simp

/-- The two faults of an instruction with a register and a memory operand, and what it does without them
(rules R79, R100, R251 steps 4 and 5). -/
theorem exec_withOperands {i : Instr} {s : State} {b : Record} {r : Byte} {a : Word} {k : Word → Word → State}
    (h : exec i s = .next (s.withOperands b r a k)) :
    (32 ≤ r.toNat → Faults i s .outOfBounds b (r.setWidth 16)) ∧
    (r.toNat < 32 → s.cfg.memSize < a.toNat + 2 → Faults i s .outOfBounds b a) ∧
    (r.toNat < 32 → a.toNat + 2 ≤ s.cfg.memSize → exec i s = .next (k (s.readReg r) (s.readN a.toNat 2))) := by
  obtain ⟨hr, ha, e⟩ | ⟨hr, e⟩ | ⟨hr, ha, e⟩ := withOperands_cases s b r a k <;> rw [e] at h
  · exact ⟨fun _ => by omega, fun _ _ => by omega, fun _ _ => h⟩
  · exact ⟨fun _ => h, fun _ => by omega, fun _ => by omega⟩
  · exact ⟨fun _ => by omega, fun _ _ => h, fun _ _ => by omega⟩

/-- A binary accumulator instruction obeys its rule if its 16-bit result, reduced to the register's width, is the one the rule
states. -/
theorem binaryRule_of_accumulate {k : Mnemonic} {mk : Byte → Word → Instr} {res : Nat → Nat → Nat → Nat}
    (f : Byte → Word → Word → Word)
    (hexec : ∀ s r a, exec (mk r a) s = .next (s.accumulate (Claims.bytesOf s k r a) r a (f r)))
    (hres : ∀ r v m, v.toNat < 2 ^ bits r → (f r v m).toNat % 2 ^ bits r = res (bits r) v.toNat m.toNat) :
    BinaryRule k mk res := by
  intro s r a
  obtain ⟨hindex, haddress, hdone⟩ := exec_withOperands (hexec s r a)
  refine ⟨hindex, haddress, fun hr ha => ?_⟩
  obtain ⟨hval, hframe, hend⟩ := writeReg_advance_rule s hr (f r (s.readReg r) (s.readN a.toNat 2))
  refine ⟨_, hdone hr ha, ?_, hframe, hend⟩
  rw [hval, hres _ _ _ (readReg_toNat_lt s r), readN_two_toNat, operandAt]

/-- DIV or MOD obeys its rule if its 16-bit result is the one the rule states and is not larger than the register's value, so that
it fits the register. -/
theorem divisionRule_of_accumulateNonzero {k : Mnemonic} {mk : Byte → Word → Instr} {res : Nat → Nat → Nat}
    (f : Word → Word → Word)
    (hexec : ∀ s r a, exec (mk r a) s = .next (s.accumulateNonzero (Claims.bytesOf s k r a) r a f))
    (hres : ∀ v m, (f v m).toNat = res v.toNat m.toNat) (hle : ∀ v m, res v m ≤ v) :
    DivisionRule k mk res := by
  intro s r a
  obtain ⟨hindex, haddress, hdone⟩ := exec_withOperands (hexec s r a)
  have hzero : s.readN a.toNat 2 = 0 ↔ operandAt s a.toNat = 0 := by
    rw [← BitVec.toNat_inj, readN_two_toNat]
    rfl
  refine ⟨hindex, haddress, fun hr ha h0 => ?_, fun hr ha h0 => ?_⟩
  · exact (hdone hr ha).trans (congrArg _ (if_pos (hzero.2 h0)))
  · obtain ⟨hval, hframe, hend⟩ := writeReg_advance_rule s hr (f (s.readReg r) (s.readN a.toNat 2))
    refine ⟨_, (hdone hr ha).trans (congrArg _ (if_neg (mt hzero.1 h0))), ?_, hframe, hend⟩
    rw [hval, hres, Nat.mod_eq_of_lt ((hle _ _).trans_lt (readReg_toNat_lt s r)), readN_two_toNat, operandAt]

/-- A unary accumulator instruction obeys its rule if its 16-bit result, reduced to the register's width, is the one the rule
states. -/
theorem unaryRule_of_modifyRegister {k : Mnemonic} {mk : Byte → Word → Instr} {res : Nat → Nat → Nat} (f : Word → Word)
    (hexec : ∀ s r x, exec (mk r x) s = .next (s.modifyRegister (Claims.bytesOf s k r x) r f))
    (hres : ∀ r v, v.toNat < 2 ^ bits r → (f v).toNat % 2 ^ bits r = res (bits r) v.toNat) : UnaryRule k mk res := by
  intro s r x
  have h := hexec s r x
  rw [modifyRegister] at h
  obtain ⟨hr, e⟩ | ⟨hr, e⟩ := withRegister_cases s (Claims.bytesOf s k r x) r (s.writeReg r (f (s.readReg r))).advance <;>
    rw [e] at h
  · obtain ⟨hval, hframe, hend⟩ := writeReg_advance_rule s hr (f (s.readReg r))
    refine ⟨fun _ => by omega, fun _ => ⟨_, h, ?_, hframe, hend⟩⟩
    rw [hval, hres _ _ (readReg_toNat_lt s r)]
  · exact ⟨fun _ => h, fun _ => by omega⟩

/-! ### The seven instructions -/

/-- Reducing to 16 bits first changes nothing modulo the register's width. -/
theorem mod_65536_mod_bits (r : Byte) (n : Nat) : n % 65536 % 2 ^ bits r = n % 2 ^ bits r := by
  obtain h | h := bits_eq r <;> rw [h]
  · exact Nat.mod_mod_of_dvd n (by decide : (2 : Nat) ^ 8 ∣ 65536)
  · exact Nat.mod_mod n 65536

/-- Settles O1: sum, difference and product modulo 65536, reduced to the width. -/
theorem addSubMulWrapAtTheRegisterWidth : Obligations.AddSubMulWrapAtTheRegisterWidth := by
  refine ⟨binaryRule_of_accumulate (fun _ v m => v + m) (fun _ _ _ => rfl) fun r v m _ => ?_,
    binaryRule_of_accumulate (fun _ v m => v - m) (fun _ _ _ => rfl) fun r v m _ => ?_,
    binaryRule_of_accumulate (fun _ v m => v * m) (fun _ _ _ => rfl) fun r v m _ => ?_⟩
  · rw [BitVec.toNat_add, mod_65536_mod_bits]
  · have e : 2 ^ 16 - m.toNat + v.toNat = v.toNat + 65536 - m.toNat := by omega
    rw [BitVec.toNat_sub, e, mod_65536_mod_bits]
  · rw [BitVec.toNat_mul, mod_65536_mod_bits]

/-- Settles O2: quotient and remainder are not larger than the dividend. -/
theorem divModAreUnsignedOrDivideByZero : Obligations.DivModAreUnsignedOrDivideByZero :=
  ⟨divisionRule_of_accumulateNonzero (fun v m => v / m) (fun _ _ _ => rfl) (fun _ _ => BitVec.toNat_udiv) Nat.div_le_self,
    divisionRule_of_accumulateNonzero (fun v m => v % m) (fun _ _ _ => rfl) (fun _ _ => BitVec.toNat_umod) Nat.mod_le⟩

/-- Settles O3: successor and predecessor modulo 65536, reduced to the width. -/
theorem incDecWrapAtTheRegisterWidth : Obligations.IncDecWrapAtTheRegisterWidth := by
  refine ⟨unaryRule_of_modifyRegister (fun v => v + 1) (fun _ _ _ => rfl) fun r v _ => ?_,
    unaryRule_of_modifyRegister (fun v => v - 1) (fun _ _ _ => rfl) fun r v _ => ?_⟩
  · rw [BitVec.toNat_add, mod_65536_mod_bits]
    rfl
  · rw [BitVec.toNat_sub, mod_65536_mod_bits, show (1 : Word).toNat = 1 from rfl]
    obtain h | h := bits_eq r <;> rw [h] <;> omega

end Sys2Proof.Machine
end

section
/-! PROOFS. The logical instructions (41_logical.md): the 16-bit result each of them has, through the rules of the accumulator forms
above. -/

namespace Sys2Proof.Machine

open Sys2Proof State Claims

/-- Settles O4: the 16-bit operation acts on the two numbers as it does on the bits. -/
theorem andOrXorAreBitwise : Obligations.AndOrXorAreBitwise := by
  refine ⟨binaryRule_of_accumulate (fun _ v m => v &&& m) (fun _ _ _ => rfl) fun r v m _ => ?_,
    binaryRule_of_accumulate (fun _ v m => v ||| m) (fun _ _ _ => rfl) fun r v m _ => ?_,
    binaryRule_of_accumulate (fun _ v m => v ^^^ m) (fun _ _ _ => rfl) fun r v m _ => ?_⟩
  · rw [BitVec.toNat_and]
  · rw [BitVec.toNat_or]
  · rw [BitVec.toNat_xor]

/-- Settles O5: the 16-bit complement is 65535 - v, and its low bits are the complement at the register's width. -/
theorem notComplementsTheRegister : Obligations.NotComplementsTheRegister := by
  refine unaryRule_of_modifyRegister (fun v => v ^^^ 0xFFFF) (fun _ _ _ => rfl) fun r v hv => ?_
  have e : v ^^^ 0xFFFF = ~~~v := BitVec.xor_allOnes
  rw [e, BitVec.toNat_not]
  obtain h | h := bits_eq r <;> rw [h] at hv ⊢ <;> omega

/-- The width is a power of two, so the mask of rule R120 takes the count modulo the width. -/
theorem State.shiftCount_eq (r : Byte) (m : Word) : shiftCount r m = m.toNat % 256 % bits r := by
  rw [shiftCount, BitVec.toNat_and, loByte_toNat, bits]
  obtain h | h := registerWidth_eq r <;> rw [h]
  · exact Nat.and_two_pow_sub_one_eq_mod _ 3
  · exact Nat.and_two_pow_sub_one_eq_mod _ 4

/-- Settles O6: a left shift multiplies and is reduced to the width; a right shift divides, and its result fits the register. -/
theorem shiftsUseTheMaskedCount : Obligations.ShiftsUseTheMaskedCount := by
  refine ⟨binaryRule_of_accumulate (fun r v m => v <<< shiftCount r m) (fun _ _ _ => rfl) fun r v m _ => ?_,
    binaryRule_of_accumulate (fun r v m => v >>> shiftCount r m) (fun _ _ _ => rfl) fun r v m hv => ?_⟩
  · rw [BitVec.toNat_shiftLeft, Nat.shiftLeft_eq, mod_65536_mod_bits, shiftCount_eq]
  · rw [BitVec.toNat_ushiftRight, Nat.shiftRight_eq_div_pow, shiftCount_eq,
      Nat.mod_eq_of_lt ((Nat.div_le_self _ _).trans_lt hv)]

end Sys2Proof.Machine
end

section
/-! PROOFS. The comparisons (42_comparison.md). What an instruction of their shared form does (comparisonRule_of_compareOperands)
is proved once; an instruction adds its relation of the two values as numbers. -/

namespace Sys2Proof.Machine

open Sys2Proof State Claims

/-- An instruction whose last act is to write the flag, before it completes: the flag holds the value, and only `pc` and the mirror
change beside it (rules R22, R23, R140). -/
theorem State.setFlag_advance_rule (s : State) (f : Bool) :
    (s.setFlag f).advance.flag = f ∧
      (s.setFlag f).advance =
        { s with mem := (s.setFlag f).advance.mem, pc := (s.setFlag f).advance.pc, flag := (s.setFlag f).advance.flag } ∧
      s.SameRegisters (s.setFlag f).advance ∧ s.SameMemory (s.setFlag f).advance ∧
      (s.setFlag f).advance.EndsAt (s.pc + 4) := by
  refine ⟨advance_flag _, ?_, ?_, ?_, endsAt_advance _⟩
  · ext1 <;> simp
  · exact sameRegisters_complete _ (setFlag_cfg s f) fun k _ => byte_setFlag s f k
  · exact sameMemory_complete _ (setFlag_cfg s f) (byte_setFlag s f)

/-- A comparison obeys its rule if its relation of two 16-bit values is the one the rule states of their numbers. -/
theorem comparisonRule_of_compareOperands {k : Mnemonic} {mk : Byte → Word → Instr} {rel : Nat → Nat → Bool}
    (f : Word → Word → Bool)
    (hexec : ∀ s r a, exec (mk r a) s = .next (s.compareOperands (Claims.bytesOf s k r a) r a f))
    (hrel : ∀ v m, f v m = rel v.toNat m.toNat) : ComparisonRule k mk rel := by
  intro s r a
  obtain ⟨hindex, haddress, hdone⟩ := exec_withOperands (hexec s r a)
  refine ⟨hindex, haddress, fun hr ha => ?_⟩
  obtain ⟨hflag, hframe⟩ := setFlag_advance_rule s (f (s.readReg r) (s.readN a.toNat 2))
  refine ⟨_, hdone hr ha, ?_, hframe⟩
  rw [hflag, hrel, readN_two_toNat, operandAt]

/-- Settles O7: each relation of the model is unsigned, on the numbers of the register and the memory operand. -/
theorem comparisonsWriteTheFlag : Obligations.ComparisonsWriteTheFlag :=
  ⟨comparisonRule_of_compareOperands flagEq (fun _ _ _ => rfl) fun _ _ => rfl,
    comparisonRule_of_compareOperands flagNeq (fun _ _ _ => rfl) fun _ _ => rfl,
    comparisonRule_of_compareOperands flagLt (fun _ _ _ => rfl) fun _ _ => rfl,
    comparisonRule_of_compareOperands flagGt (fun _ _ _ => rfl) fun _ _ => rfl,
    comparisonRule_of_compareOperands flagLte (fun _ _ _ => rfl) fun _ _ => rfl,
    comparisonRule_of_compareOperands flagGte (fun _ _ _ => rfl) fun _ _ => rfl⟩

end Sys2Proof.Machine
end

section
/-! PROOFS. The data stack (43_stack.md). What each stack instruction does is one equation per case (exec_push, exec_pop,
exec_swap, exec_dup); what a push leaves behind is said once for PUSH and DUP. The primitives of rule R160 are then the same
stores in another order, and a run's states meet the invariant because a load and every step keep it. -/

namespace Sys2Proof.Machine

open Sys2Proof State Claims

/-! ### The cases of the stack instructions -/

theorem State.stackHasRoom_iff {s : State} {n : Nat} : s.stackHasRoom n = true ↔ s.cfg.stackBase + n ≤ s.sp.toNat := by
  simp [stackHasRoom]

theorem State.stackHolds_iff {s : State} {n : Nat} : s.stackHolds n = true ↔ s.sp.toNat + n ≤ s.cfg.stackTop := by
  simp [stackHolds]

/-- An instruction with a register operand and one check behind it: the two faults, and what it does without them
(rule R251 steps 4 and 7). -/
theorem exec_withRegister_ite {i : Instr} {s done : State} {b : Record} {r : Byte} {c : Bool} {p : Prop} {k : FaultKind}
    {info : Word} (hc : c = true ↔ p)
    (h : exec i s = .next (s.withRegister b r (if c then done else s.takeFault b k info))) :
    (32 ≤ r.toNat → Faults i s .outOfBounds b (r.setWidth 16)) ∧
    (r.toNat < 32 → ¬p → Faults i s k b info) ∧
    (r.toNat < 32 → p → exec i s = .next done) := by
  obtain ⟨hr, e⟩ | ⟨hr, e⟩ := withRegister_cases s b r (if c then done else s.takeFault b k info) <;> rw [e] at h
  · exact ⟨fun _ => by omega, fun _ hp => h.trans (congrArg _ (if_neg (mt hc.1 hp))),
      fun _ hp => h.trans (congrArg _ (if_pos (hc.2 hp)))⟩
  · exact ⟨fun _ => h, fun _ => by omega, fun _ => by omega⟩

/-- The cursor may as well be moved before a register is written: the register's address does not depend on it. -/
theorem State.writeReg_setSp (s : State) (r : Byte) (v w : Word) : (s.setSp w).writeReg r v = (s.writeReg r v).setSp w := by
  unfold writeReg writeN
  split <;> rfl

theorem exec_push (s : State) (r : Byte) (x : Word) :
    (32 ≤ r.toNat → Faults (.push r x) s .outOfBounds (Claims.bytesOf s .push r x) (r.setWidth 16)) ∧
    (r.toNat < 32 → ¬s.cfg.stackBase + registerWidth r ≤ s.sp.toNat →
      Faults (.push r x) s .stackOverflow (Claims.bytesOf s .push r x) s.sp) ∧
    (r.toNat < 32 → s.cfg.stackBase + registerWidth r ≤ s.sp.toNat →
      exec (.push r x) s = .next (s.pushValue (registerWidth r) (s.readReg r)).advance) :=
  exec_withRegister_ite stackHasRoom_iff rfl

theorem exec_pop (s : State) (r : Byte) (x : Word) :
    (32 ≤ r.toNat → Faults (.pop r x) s .outOfBounds (Claims.bytesOf s .pop r x) (r.setWidth 16)) ∧
    (r.toNat < 32 → ¬s.sp.toNat + registerWidth r ≤ s.cfg.stackTop →
      Faults (.pop r x) s .stackUnderflow (Claims.bytesOf s .pop r x) s.sp) ∧
    (r.toNat < 32 → s.sp.toNat + registerWidth r ≤ s.cfg.stackTop →
      exec (.pop r x) s = .next
        ((s.setSp (s.sp + BitVec.ofNat 16 (registerWidth r))).writeReg r (s.topValue (registerWidth r))).advance) := by
  rw [writeReg_setSp]
  exact exec_withRegister_ite stackHolds_iff rfl

theorem exec_swap (s : State) (r : Byte) (x : Word) :
    (32 ≤ r.toNat → Faults (.swap r x) s .outOfBounds (Claims.bytesOf s .swap r x) (r.setWidth 16)) ∧
    (r.toNat < 32 → ¬s.sp.toNat + registerWidth r ≤ s.cfg.stackTop →
      Faults (.swap r x) s .stackUnderflow (Claims.bytesOf s .swap r x) s.sp) ∧
    (r.toNat < 32 → s.sp.toNat + registerWidth r ≤ s.cfg.stackTop →
      exec (.swap r x) s = .next
        ((s.writeN s.sp.toNat (registerWidth r) (s.readReg r)).writeReg r (s.topValue (registerWidth r))).advance) :=
  exec_withRegister_ite stackHolds_iff rfl

theorem exec_dup (s : State) (x0 x1 x2 : Byte) :
    (s.sp.toNat = s.cfg.stackTop →
      Faults (.dup x0 x1 x2) s .stackUnderflow ⟨s.cfg.opc.byte .dup, x0, x1, x2⟩ s.sp) ∧
    (s.sp.toNat ≠ s.cfg.stackTop → s.sp.toNat = s.cfg.stackBase →
      Faults (.dup x0 x1 x2) s .stackOverflow ⟨s.cfg.opc.byte .dup, x0, x1, x2⟩ s.sp) ∧
    (s.sp.toNat ≠ s.cfg.stackTop → s.sp.toNat ≠ s.cfg.stackBase →
      exec (.dup x0 x1 x2) s = .next (s.pushValue 1 (s.topValue 1)).advance) :=
  ⟨fun h => congrArg _ (if_pos h), fun h h' => congrArg _ ((if_neg h).trans (if_pos h')),
    fun h h' => congrArg _ ((if_neg h).trans (if_neg h'))⟩

/-! ### Values on the stack -/

theorem State.readN_toNat (s : State) (a n : Nat) : (s.readN a n).toNat = valueAt s a n := by
  unfold valueAt
  split
  · subst n
    exact readN_one_toNat s a
  · rw [readN, if_neg ‹_›]
    exact joinBytes_toNat _ _

/-- A value read from `n` bytes fits them: cutting it to `8n` bits, as a store there does, changes nothing. -/
theorem State.readN_cut (s : State) (a n : Nat) :
    (if n = 1 then (loByte (s.readN a n)).setWidth 16 else s.readN a n) = s.readN a n := by
  split
  · subst n
    simp [readN]
  · rfl

/-- A register that is written the value of as many bytes as it is wide reads as that value. -/
theorem State.readReg_writeReg_readN (s u : State) (r : Byte) (a : Nat) :
    (s.writeReg r (u.readN a (registerWidth r))).readReg r = u.readN a (registerWidth r) := by
  rw [readReg_writeReg, readN_cut]

theorem State.loByte_topValue_one (s : State) : loByte (s.topValue 1) = s.byte s.sp.toNat := loByte_setWidth _

theorem State.mirrorAddress_eq (s : State) : s.mirrorAddress = 48 := by simp [mirrorAddress, Config.regBase]

/-- A store past the register file keeps every register. -/
theorem State.readReg_writeN_of_ge {s : State} {a n : Nat} {q : Byte} (v : Word) (hn : n = 1 ∨ n = 2) (ha : 48 ≤ a)
    (hq : q.toNat < 32) : (s.writeN a n v).readReg q = s.readReg q := by
  have := registerAddress_add_width_le s.cfg hq
  unfold readReg
  rw [writeN_cfg]
  exact readN_congr (registerWidth_eq q) fun k _ _ => byte_writeN_other s v hn (by omega)

/-! ### Moving the cursor -/

theorem toNat_sub_ofNat {w : Word} {n : Nat} (h : n ≤ w.toNat) : (w - BitVec.ofNat 16 n).toNat = w.toNat - n := by
  have hn : (BitVec.ofNat 16 n).toNat = n := by
    rw [BitVec.toNat_ofNat]
    exact Nat.mod_eq_of_lt (h.trans_lt w.isLt)
  rw [BitVec.toNat_sub_of_le (by rwa [BitVec.le_def, hn]), hn]

theorem toNat_add_ofNat {w : Word} {n : Nat} (h : w.toNat + n < 65536) :
    (w + BitVec.ofNat 16 n).toNat = w.toNat + n := by
  rw [BitVec.toNat_add, BitVec.toNat_ofNat]
  omega

theorem toNat_sub_one {w : Word} (h : 1 ≤ w.toNat) : (w - 1).toNat = w.toNat - 1 := toNat_sub_ofNat h

theorem toNat_add_one {w : Word} (h : w.toNat + 1 < 65536) : (w + 1).toNat = w.toNat + 1 := toNat_add_ofNat h

/-! ### What a push leaves behind -/

section Push

variable {s : State} {n : Nat} (v : Word) (hn : n = 1 ∨ n = 2) (hL : s.cfg.Legal)
  (hroom : s.cfg.stackBase + n ≤ s.sp.toNat)

include hroom in
theorem State.pushValue_advance_sp : (s.pushValue n v).advance.sp.toNat = s.sp.toNat - n := by
  rw [advance_sp, pushValue_sp, toNat_sub_ofNat (by omega)]

include hn hL hroom in
/-- The pushed bytes read as the value, cut to their number: the mirror lies below the stack. -/
theorem State.readN_pushValue_advance :
    (s.pushValue n v).advance.readN (s.sp.toNat - n) n = if n = 1 then (loByte v).setWidth 16 else v := by
  have hb := (legal_bounds hL).1
  have hmirror := mirrorAddress_eq (s.pushValue n v)
  rw [advance, readN_complete _ _ hn (by omega), pushValue, readN_setSp, readN_writeN _ _ _ hn]

include hn hL hroom in
/-- A push changes the cursor, `pc`, and the bytes it pushes, all of which lie above the registers and the mirror. -/
theorem State.pushValue_advance_frame :
    (s.pushValue n v).advance =
        { s with
          mem := (s.pushValue n v).advance.mem
          pc := (s.pushValue n v).advance.pc
          sp := (s.pushValue n v).advance.sp } ∧
      s.SameRegisters (s.pushValue n v).advance ∧ s.SameMemoryBut (s.pushValue n v).advance (s.sp.toNat - n) n ∧
      (s.pushValue n v).advance.EndsAt (s.pc + 4) := by
  have hb := (legal_bounds hL).1
  have hbytes : ∀ k, k < s.sp.toNat - n ∨ s.sp.toNat - n + n ≤ k → (s.pushValue n v).byte k = s.byte k :=
    fun k hk => byte_writeN_other s v hn hk
  refine ⟨?_, ?_, ?_, by simpa using endsAt_advance (s.pushValue n v)⟩
  · ext1 <;> simp
  · exact sameRegisters_complete _ (pushValue_cfg s n v) fun k hk => hbytes k (.inl (by omega))
  · exact sameMemoryBut_complete _ (pushValue_cfg s n v) hbytes

end Push

/-! ### The stack instructions, rule by rule -/

/-- Settles O8: PUSH is its two checks and a push of the register's value. -/
theorem pushStoresTheRegisterBelowTheCursor : Obligations.PushStoresTheRegisterBelowTheCursor := by
  intro s r x hL
  obtain ⟨hindex, hfull, hdone⟩ := exec_push s r x
  refine ⟨hindex, fun hr h => hfull hr (Nat.not_le.2 h), fun hr h => ⟨_, hdone hr h, ?_⟩⟩
  have hw := registerWidth_eq r
  have hval := readN_pushValue_advance (s.readReg r) hw hL h
  rw [pushValue_advance_sp _ h, ← readN_toNat, hval, readReg, readN_cut]
  exact ⟨by omega, rfl, pushValue_advance_frame _ hw hL h⟩

/-- Settles O9: POP is its two checks and a register write of the top bytes, with the cursor moved. -/
theorem popMovesTheTopIntoTheRegister : Obligations.PopMovesTheTopIntoTheRegister := by
  intro s r x hL
  obtain ⟨hindex, hempty, hdone⟩ := exec_pop s r x
  refine ⟨hindex, fun hr h => hempty hr (Nat.not_le.2 h), fun hr h => ⟨_, hdone hr h, ?_⟩⟩
  have htop := stackTop_lt hL
  obtain ⟨-, ⟨-, hregs, hmem⟩, hend⟩ :=
    writeReg_advance_rule (s.setSp (s.sp + BitVec.ofNat 16 (registerWidth r))) hr (s.topValue (registerWidth r))
  refine ⟨?_, ?_, ?_, hregs, hmem, hend⟩
  · rw [advance, readReg_complete _ _ hr, topValue, readReg_writeReg_readN, readN_toNat]
  · rw [advance_sp, writeReg_sp, setSp_sp, toNat_add_ofNat (by omega)]
  · ext1 <;> simp

/-- Settles O10: DUP is its two checks, which a legal stack cannot both fail, and a push of the top byte. -/
theorem dupCopiesTheTopByte : Obligations.DupCopiesTheTopByte := by
  intro s x0 x1 x2 hL
  have hne := (legal_bounds hL).2.1
  obtain ⟨hempty, hfull, hdone⟩ := exec_dup s x0 x1 x2
  refine ⟨hempty, fun h => hfull (by omega) h, fun h h' => ⟨_, hdone (by omega) (by omega), ?_⟩⟩
  have hval := (readN_pushValue_advance (s.topValue 1) (.inl rfl) hL h).trans (readN_cut s _ 1)
  rw [pushValue_advance_sp _ h]
  refine ⟨by omega, BitVec.eq_of_toNat_eq ?_, pushValue_advance_frame _ (.inl rfl) hL h⟩
  rw [← readN_one_toNat, ← readN_one_toNat, hval]

/-- Settles O11: SWAP stores the register over the top bytes and then the old top bytes into the register; the stack, the
register file and the mirror do not overlap. -/
theorem swapExchangesRegisterAndTop : Obligations.SwapExchangesRegisterAndTop := by
  intro s r x hL hbase
  obtain ⟨hindex, hempty, hdone⟩ := exec_swap s r x
  refine ⟨hindex, fun hr h => hempty hr (Nat.not_le.2 h), fun hr h => ⟨_, hdone hr h, ?_⟩⟩
  have hb := (legal_bounds hL).1
  have hw := registerWidth_eq r
  have hreg := registerAddress_add_width_le s.cfg hr
  obtain ⟨-, ⟨-, hregs, hmem⟩, hend⟩ :=
    writeReg_advance_rule (s.writeN s.sp.toNat (registerWidth r) (s.readReg r)) hr (s.topValue (registerWidth r))
  simp only [SameMemoryBut, mirrorAddress_eq, writeN_cfg, writeN_pc] at hmem hend
  rw [mirrorAddress_eq]
  refine ⟨?_, ?_, ?_, fun q hq hne => ?_, fun k hk hk' h1 h2 => ?_, hend⟩
  · rw [advance, readReg_complete _ _ hr, topValue, readReg_writeReg_readN, readN_toNat]
  · have hstack := readN_congr hw fun k (h1 : s.sp.toNat ≤ k) _ => hmem k (by omega) (by omega) (by omega)
    rw [← readN_toNat, hstack, readN_writeN _ _ _ hw, readReg, readN_cut]
  · ext1 <;> simp
  · rw [hregs q hq hne, readReg_writeN_of_ge _ hw (by omega) hq]
  · rw [hmem k hk' h1 h2, byte_writeN_other _ _ hw hk]

/-- Settles O13: by what PUSH and POP do, POP reads the bytes that PUSH stored. -/
theorem pushThenPopReturnsTheValue : Obligations.PushThenPopReturnsTheValue := by
  intro s r q x y hL hr hq hw hroom htop
  obtain ⟨-, -, hpush⟩ := pushStoresTheRegisterBelowTheCursor s r x hL
  obtain ⟨t, ht, htsp, htval, hts, -⟩ := hpush hr hroom
  have hcfg : t.cfg = s.cfg := by rw [hts]
  obtain ⟨-, -, hpop⟩ := popMovesTheTopIntoTheRegister t q y (hcfg ▸ hL)
  obtain ⟨u, hu, huval, husp, hut, -⟩ := hpop hq (by rw [hcfg]; omega)
  refine ⟨t, u, ht, hu, BitVec.eq_of_toNat_eq ?_, BitVec.eq_of_toNat_eq ?_, ?_⟩
  · rw [huval, hw, htval]
  · omega
  · rw [hut, hts]

/-! ### The primitives -/

/-- Stores to different addresses of a canonical memory may be made in either order. -/
theorem Memory.write_comm {m : Memory} (h : m.wf = true) {a b : Nat} (hab : a ≠ b) (x y : Byte) :
    (m.write a x).write b y = (m.write b y).write a x :=
  wf_ext (wf_write (wf_write h a x) b y) (wf_write (wf_write h b y) a x) fun k => by
    simp only [read_write]
    by_cases hb : k = b
    · rw [if_pos hb, if_neg (by omega), if_pos hb]
    · rw [if_neg hb, if_neg hb]

theorem State.setByte_comm {s : State} (h : s.mem.wf = true) {a b : Nat} (hab : a ≠ b) (x y : Byte) :
    (s.setByte a x).setByte b y = (s.setByte b y).setByte a x :=
  congrArg s.setMem (Memory.write_comm h hab x y)

section Primitives

variable {s : State}

theorem State.pushByte_of_full (b : Byte) (h : s.sp.toNat = s.cfg.stackBase) : s.pushByte b = none := if_pos h

theorem State.pushByte_of_room (b : Byte) (h : s.cfg.stackBase + 1 ≤ s.sp.toNat) :
    s.pushByte b = some ((s.setByte (s.sp.toNat - 1) b).setSp (s.sp - 1)) := by
  rw [pushByte, if_neg (by omega), toNat_sub_one (by omega)]

theorem State.popByte_of_empty (h : s.sp.toNat = s.cfg.stackTop) : s.popByte = none := if_pos h

theorem State.popByte_of_holds (h : s.sp.toNat + 1 ≤ s.cfg.stackTop) :
    s.popByte = some (s.byte s.sp.toNat, s.setSp (s.sp + 1)) := if_neg (by omega)

theorem State.swapByte_of_empty (b : Byte) (h : s.sp.toNat = s.cfg.stackTop) : s.swapByte b = none := if_pos h

theorem State.swapByte_of_holds (b : Byte) (h : s.sp.toNat + 1 ≤ s.cfg.stackTop) :
    s.swapByte b = some (s.byte s.sp.toNat, s.setByte s.sp.toNat b) := if_neg (by omega)

/-- Two pushes, low byte first, are one push of a 16-bit value: the two stores commute. -/
theorem State.pushByte_pushByte_of_room (hm : s.mem.wf = true) (v : Word) (h : s.cfg.stackBase + 2 ≤ s.sp.toNat) :
    ((s.pushByte (loByte v)).bind fun u => u.pushByte (hiByte v)) = some (s.pushValue 2 v) := by
  have hsp : (s.sp - 1).toNat = s.sp.toNat - 1 := toNat_sub_one (by omega)
  have hlo : s.sp.toNat - 1 = s.sp.toNat - 2 + 1 := by omega
  have hsub : s.sp - 1 - 1 = s.sp - 2 := BitVec.sub_sub _ _ _
  have hpush : s.pushValue 2 v =
      ((s.setByte (s.sp.toNat - 2 + 1) (loByte v)).setByte (s.sp.toNat - 2) (hiByte v)).setSp (s.sp - 2) :=
    congrArg (setSp · (s.sp - 2)) (setByte_comm hm (by omega) _ _)
  rw [pushByte_of_room _ (by omega), Option.bind_some,
    pushByte_of_room _ (by rw [setSp_sp, hsp, setSp_cfg, setByte_cfg]; omega), setSp_sp, hsp, hsub, hlo,
    Nat.add_sub_cancel, hpush]
  rfl

/-- Without room for both bytes, one of the two pushes fails. -/
theorem State.pushByte_pushByte_of_no_room (b b' : Byte) (h : s.cfg.stackBase ≤ s.sp.toNat)
    (h' : ¬s.cfg.stackBase + 2 ≤ s.sp.toNat) : ((s.pushByte b).bind fun u => u.pushByte b') = none := by
  obtain hfull | hone : s.sp.toNat = s.cfg.stackBase ∨ s.sp.toNat = s.cfg.stackBase + 1 := by omega
  · rw [pushByte_of_full _ hfull, Option.bind_none]
  · rw [pushByte_of_room _ (by omega), Option.bind_some, pushByte_of_full]
    rw [setSp_sp, toNat_sub_one (by omega), setSp_cfg, setByte_cfg]
    omega

/-- Two pops, high byte first, give the two bytes from the cursor and move it by two. -/
theorem State.popByte_popByte_of_holds (hL : s.cfg.Legal) (h : s.sp.toNat + 2 ≤ s.cfg.stackTop) :
    (s.popByte.bind fun p => p.2.popByte.map fun q => (p.1, q.1, q.2)) =
      some (s.byte s.sp.toNat, s.byte (s.sp.toNat + 1), s.setSp (s.sp + 2)) := by
  have htop := stackTop_lt hL
  have hsp : (s.sp + 1).toNat = s.sp.toNat + 1 := toNat_add_one (by omega)
  have hadd : s.sp + 1 + 1 = s.sp + 2 := BitVec.add_assoc _ _ _
  rw [popByte_of_holds (by omega), Option.bind_some, popByte_of_holds (by rw [setSp_sp, hsp, setSp_cfg]; omega),
    setSp_sp, hsp, hadd]
  rfl

/-- With fewer than two bytes on the stack, one of the two pops fails. -/
theorem State.popByte_popByte_of_not_holds (hL : s.cfg.Legal) (h : s.sp.toNat ≤ s.cfg.stackTop)
    (h' : ¬s.sp.toNat + 2 ≤ s.cfg.stackTop) :
    (s.popByte.bind fun p => p.2.popByte.map fun q => (p.1, q.1, q.2)) = none := by
  have htop := stackTop_lt hL
  obtain hempty | hone : s.sp.toNat = s.cfg.stackTop ∨ s.sp.toNat + 1 = s.cfg.stackTop := by omega
  · rw [popByte_of_empty hempty, Option.bind_none]
  · rw [popByte_of_holds (by omega), Option.bind_some, popByte_of_empty, Option.map_none]
    rw [setSp_sp, toNat_add_one (by omega), setSp_cfg, hone]

end Primitives

/-- Settles O12: where an instruction's check passes its primitives succeed and make the same changes; where it fails, one of
them fails. -/
theorem stackInstructionsAreThePrimitives : Obligations.StackInstructionsAreThePrimitives := by
  intro s r x x0 x1 x2 hinv hr
  obtain ⟨hL, ⟨hwf, -⟩, ⟨hbase, htop⟩, -⟩ := hinv
  obtain ⟨-, hpushFull, hpush⟩ := exec_push s r x
  obtain ⟨-, hpopEmpty, hpop⟩ := exec_pop s r x
  obtain ⟨-, hswapEmpty, hswap⟩ := exec_swap s r x
  obtain ⟨hdupEmpty, hdupFull, hdup⟩ := exec_dup s x0 x1 x2
  refine ⟨fun hw => ?_, fun hw => ?_, fun hw => ?_, fun hw => ?_, fun hw => ?_, ?_⟩
  · -- PUSH of a byte
    rw [hw] at hpushFull hpush
    by_cases h : s.cfg.stackBase + 1 ≤ s.sp.toNat
    · rw [pushByte_of_room _ h]
      exact hpush hr h
    · rw [pushByte_of_full _ (by omega)]
      exact hpushFull hr h
  · -- PUSH of two bytes
    rw [hw] at hpushFull hpush
    by_cases h : s.cfg.stackBase + 2 ≤ s.sp.toNat
    · rw [pushByte_pushByte_of_room hwf _ h]
      exact hpush hr h
    · rw [pushByte_pushByte_of_no_room _ _ hbase h]
      exact hpushFull hr h
  · -- POP of a byte
    rw [hw] at hpopEmpty hpop
    by_cases h : s.sp.toNat + 1 ≤ s.cfg.stackTop
    · rw [popByte_of_holds h]
      exact hpop hr h
    · rw [popByte_of_empty (by omega)]
      exact hpopEmpty hr h
  · -- POP of two bytes
    rw [hw] at hpopEmpty hpop
    by_cases h : s.sp.toNat + 2 ≤ s.cfg.stackTop
    · rw [popByte_popByte_of_holds hL h]
      exact hpop hr h
    · rw [popByte_popByte_of_not_holds hL htop h]
      exact hpopEmpty hr h
  · -- SWAP of a byte
    rw [hw] at hswapEmpty hswap
    by_cases h : s.sp.toNat + 1 ≤ s.cfg.stackTop
    · rw [swapByte_of_holds _ h]
      exact hswap hr h
    · rw [swapByte_of_empty _ (by omega)]
      exact hswapEmpty hr h
  · -- DUP
    by_cases hempty : s.sp.toNat = s.cfg.stackTop
    · rw [popByte_of_empty hempty]
      exact hdupEmpty hempty
    · rw [popByte_of_holds (by omega), ← loByte_topValue_one]
      by_cases hfull : s.sp.toNat = s.cfg.stackBase
      · simp only [pushByte_of_full _ hfull]
        exact hdupFull hempty hfull
      · have hroom : s.cfg.stackBase + 1 ≤ s.sp.toNat := by omega
        simp only [pushByte_of_room _ hroom]
        exact hdup hempty hfull

/-! ### How far the cursor moves -/

/-- Settles O40: a fault keeps the cursor, and a body moves it only as far as its instruction may. -/
theorem onlyStackInstructionsMoveTheCursor : Obligations.OnlyStackInstructionsMoveTheCursor := by
  intro i s t hL hc ht
  obtain ⟨k, info, -, -, -, rfl⟩ | ⟨u, target, rfl, hb⟩ := ends_of_exec ht
  · exact ⟨fun _ => rfl, Nat.le_add_right _ 2, Nat.le_add_right _ 2⟩
  · rw [complete_sp]
    exact ⟨hb.sp, (hb.cursor hL hc).2⟩

/-! ### The states of a run -/

/-- A load keeps the invariant: it stores into the program segment, above the mirror and inside the buffer (rule R285). -/
theorem State.Inv.load {s t : State} {image : List Byte} (h : s.Inv) (hl : s.load image = .ok t) : t.Inv := by
  obtain ⟨-, hlen, rfl⟩ := load_ok hl
  obtain ⟨hL, ⟨hwf, hbelow⟩, hc, hr, hi, hp, ho⟩ := h
  obtain ⟨h1, h2, h3, h4, -, -⟩ := legal_bounds hL
  have hmirror := mirrorAddress_eq s
  have hp' : (s.setMem (s.mem.writeBlock s.cfg.progBase image)).readN s.mirrorAddress 2 = s.readN s.mirrorAddress 2 :=
    readN_congr (.inr rfl) fun k _ _ => Memory.read_writeBlock_other s.mem (.inl (by omega))
  exact ⟨hL, ⟨Memory.wf_writeBlock hwf _ _, Memory.below_writeBlock hbelow (by simp only [setMem_cfg]; omega)⟩, hc, hr, hi,
    hp'.trans hp, ho⟩

/-- So does `run`, which only sets the engine Running (rule R288). -/
theorem State.Inv.run {s t : State} (h : s.Inv) (hrun : s.run = .ok t) : t.Inv ∧ t.state = .running := by
  unfold State.run at hrun
  split at hrun <;> cases hrun
  rename_i hs
  obtain ⟨hL, hm, hc, hr, hi, hp, hz, -, he⟩ := h
  exact ⟨⟨hL, hm, hc, hr, hi, hp, fun _ => hz (by simp [hs]), by nofun, fun _ => he (by simp [hs])⟩, rfl⟩

/-- Settles O52: reset, load and `run` establish the invariant, and every step keeps it; none leads back to Loaded. -/
theorem reachableStatesSatisfyTheInvariant : Obligations.ReachableStatesSatisfyTheInvariant := by
  intro s h
  induction h with
  | start c input image s t hL hload hrun =>
    obtain ⟨hinv, hs⟩ := ((inv_resetWith hL input).load hload).run hrun
    exact ⟨hinv, by simp [hs]⟩
  | step s t _ hst ih =>
    refine ⟨everyStepKeepsTheInvariant s t ih.1 hst, ?_⟩
    obtain h | h | ⟨h, -⟩ := step_engine hst <;> simp [h]

end Sys2Proof.Machine
end

section
/-! PROOFS. The control flow (44_control_flow.md). The completion of a body that stored nothing moves `pc` and its mirror alone
(complete_rule_of_mem_eq): a jump is such a completion, CALL and RET are one with the return-address stack updated before it. -/

namespace Sys2Proof.Machine

open Sys2Proof State Claims

/-! ### Completing at a target -/

/-- Completion of a body that stored nothing keeps the registers and all memory but the mirror, and ends at its target
(rules R22, R23). -/
theorem State.complete_rule_of_mem_eq {s u : State} (target : Word) (hc : u.cfg = s.cfg) (hm : u.mem = s.mem) :
    s.SameRegisters (u.complete target) ∧ s.SameMemory (u.complete target) ∧ (u.complete target).EndsAt target := by
  have hb : ∀ k, u.byte k = s.byte k := fun k => congrArg (Memory.read · k) hm
  exact ⟨sameRegisters_complete target hc fun k _ => hb k, sameMemory_complete target hc hb, endsAt_complete u target⟩

/-- An instruction that does nothing but complete at a target only moves `pc`. -/
theorem onlyMovesPc_of_complete {i : Instr} {s : State} {target : Word} (h : exec i s = .next (s.complete target)) :
    OnlyMovesPc i s target :=
  ⟨_, h, by ext1 <;> simp, complete_rule_of_mem_eq target rfl rfl⟩

/-! ### The jumps -/

/-- Settles O14: JMP is the completion at its target. -/
theorem jmpGoesToTheTarget : Obligations.JmpGoesToTheTarget := fun _ _ _ => onlyMovesPc_of_complete rfl

/-- An instruction that is a conditional jump only moves `pc`: to the target where its condition holds, else past itself
(rule R180). -/
theorem onlyMovesPc_of_jumpIf {i : Instr} {s : State} {taken : Bool} {target : Word} {p : Prop} [Decidable p]
    (hp : taken = true ↔ p) (h : exec i s = .next (s.jumpIf taken target)) :
    OnlyMovesPc i s (if p then target else s.pc + 4) := by
  refine onlyMovesPc_of_complete (h.trans (congrArg _ ?_))
  unfold jumpIf
  by_cases ht : p
  · rw [if_pos ht, if_pos (hp.2 ht)]
  · rw [if_neg ht, if_neg (mt hp.1 ht), advance]

theorem State.flagFalse_iff {s : State} : s.flagFalse = true ↔ s.flag = false := by simp [flagFalse]

/-- Settles O15: JMPT tests the flag, JMPF and JZ its negation, and each is a conditional jump. -/
theorem conditionalJumpsFollowTheFlag : Obligations.ConditionalJumpsFollowTheFlag := fun _ _ _ =>
  ⟨onlyMovesPc_of_jumpIf Iff.rfl rfl, onlyMovesPc_of_jumpIf flagFalse_iff rfl, onlyMovesPc_of_jumpIf flagFalse_iff rfl⟩

/-! ### The return-address stack -/

/-- What a full return-address stack reports is its count, where the record can hold it (log entry 6). -/
theorem rasCountInfo_toNat {n : Nat} (h : n < 65536) : (rasCountInfo n).toNat = n := by
  rw [rasCountInfo, if_pos h, BitVec.toNat_ofNat, Nat.mod_eq_of_lt h]

theorem exec_call (s : State) (x : Byte) (target : Word) :
    (s.rasCount = s.cfg.rasDepth →
      Faults (.call x target) s .stackOverflow (Claims.bytesOf s .call x target) (rasCountInfo s.rasCount)) ∧
    (s.rasCount ≠ s.cfg.rasDepth →
      exec (.call x target) s = .next
        (((s.setRas (s.ras.set s.rasCount (s.pc + 4))).setRasCount (s.rasCount + 1)).complete target)) :=
  ⟨fun h => congrArg _ (if_pos h), fun h => congrArg _ (if_neg h)⟩

theorem exec_ret (s : State) (x0 x1 x2 : Byte) :
    (s.rasCount = 0 → Faults (.ret x0 x1 x2) s .stackUnderflow ⟨s.cfg.opc.byte .ret, x0, x1, x2⟩ 0) ∧
    (s.rasCount ≠ 0 → ∀ {v : Word}, s.ras[s.rasCount - 1]? = some v →
      exec (.ret x0 x1 x2) s = .next ((s.setRasCount (s.rasCount - 1)).complete v)) := by
  refine ⟨fun h => congrArg _ (if_pos h), fun h v hv => (congrArg _ (if_neg h)).trans ?_⟩
  rw [List.getD_eq_getElem?_getD, hv, Option.getD_some]

/-- Settles O16: CALL is its check, and a completion after the next offset is stored in the first free entry. -/
theorem callSavesTheNextOffset : Obligations.CallSavesTheNextOffset := by
  intro s x target ⟨hlen, _⟩
  obtain ⟨hfull, hdone⟩ := exec_call s x target
  refine ⟨fun h => ⟨_, hfull h, rasCountInfo_toNat⟩, fun h => ⟨_, hdone h.ne, ?_⟩⟩
  refine ⟨by simp, ?_, fun j hj => ?_, by ext1 <;> simp, complete_rule_of_mem_eq target rfl rfl⟩
  · simpa using List.getElem?_set_self (a := s.pc + 4) (hlen ▸ h)
  · simpa using List.getElem?_set_ne hj.symm

/-- Settles O17: RET is its check, and a completion at the newest valid entry, which is an entry since all valid ones are. -/
theorem retReturnsToTheNewestOffset : Obligations.RetReturnsToTheNewestOffset := by
  intro s x0 x1 x2 ⟨hlen, hcount⟩
  obtain ⟨hempty, hdone⟩ := exec_ret s x0 x1 x2
  refine ⟨hempty, fun h => ?_⟩
  have hv := List.getElem?_eq_getElem (show s.rasCount - 1 < s.ras.length by omega)
  obtain ⟨hregs, hmem, hend⟩ :=
    complete_rule_of_mem_eq (s := s) (u := s.setRasCount (s.rasCount - 1)) s.ras[s.rasCount - 1] rfl rfl
  refine ⟨_, _, hdone h.ne' hv, hv, hend, ?_, by ext1 <;> simp, hregs, hmem⟩
  simpa using Nat.succ_pred_eq_of_pos h

/-- Settles O18: the newest entry of the return-address stack that CALL leaves is the offset it saved. -/
theorem retAfterCallContinuesAfterTheCall : Obligations.RetAfterCallContinuesAfterTheCall := by
  intro s x target hinv hfree
  obtain ⟨-, hcall⟩ := callSavesTheNextOffset s x target hinv
  obtain ⟨t, ht, hcount, hsaved, -⟩ := hcall hfree
  refine ⟨t, ht, fun u x0 x1 x2 hras hkept => ?_⟩
  have hu : u.rasCount = s.rasCount + 1 := hkept.trans hcount
  have hv : u.ras[u.rasCount - 1]? = some (s.pc + 4) := by rw [hras, hu, Nat.add_sub_cancel, hsaved]
  exact ⟨_, (exec_ret u x0 x1 x2).2 (by omega) hv, by simp, by simp [hu], by simp⟩

end Sys2Proof.Machine
end

section
/-! PROOFS. The memory and register instructions (45_memory_register.md). Each is the check of its register index and one access
behind it (exec_withRegister). LOAD and MOV end in a register write; what a store of a value leaves behind (byte_writeN_toNat,
readReg_writeN_other) is said once for STORE. -/

namespace Sys2Proof.Machine

open Sys2Proof State Claims

/-- An instruction with a register operand and anything behind it: the fault of an illegal index, and what it does without it
(rules R79, R251 step 4). -/
theorem exec_withRegister {i : Instr} {s rest : State} {b : Record} {r : Byte}
    (h : exec i s = .next (s.withRegister b r rest)) :
    (32 ≤ r.toNat → Faults i s .outOfBounds b (r.setWidth 16)) ∧ (r.toNat < 32 → exec i s = .next rest) := by
  obtain ⟨hr, e⟩ | ⟨hr, e⟩ := withRegister_cases s b r rest <;> rw [e] at h
  · exact ⟨fun _ => by omega, fun _ => h⟩
  · exact ⟨fun _ => h, fun _ => by omega⟩

/-! ### LOAD and MOV -/

/-- The two faults of LOAD, in the order of its checks (rule R201); exec_load_of_legal is its other end. -/
theorem exec_load_faults (s : State) (r : Byte) (a : Word) :
    (32 ≤ r.toNat → Faults (.load r a) s .outOfBounds (Claims.bytesOf s .load r a) (r.setWidth 16)) ∧
    (r.toNat < 32 → s.cfg.memSize < a.toNat + registerWidth r →
      Faults (.load r a) s .outOfBounds (Claims.bytesOf s .load r a) a) := by
  obtain ⟨hindex, hrest⟩ :=
    exec_withRegister (rfl : exec (.load r a) s = .next (s.withRegister (s.bytesOf (.load r a)) r _))
  refine ⟨hindex, fun hr ha => (hrest hr).trans (congrArg _ ?_)⟩
  obtain ⟨h, -⟩ | ⟨-, e⟩ := withMemory_cases s (s.bytesOf (.load r a)) a (registerWidth r) fun v => (s.writeReg r v).advance
  · omega
  · exact e

/-- Settles O19: LOAD is its two checks, and a register write of as many bytes as the register is wide. -/
theorem loadCopiesMemoryIntoTheRegister : Obligations.LoadCopiesMemoryIntoTheRegister := by
  intro s r a
  obtain ⟨hindex, haddress⟩ := exec_load_faults s r a
  refine ⟨hindex, haddress, fun hr ha => ⟨_, exec_load_of_legal hr ha, ?_⟩⟩
  obtain ⟨-, hframe, hend⟩ := writeReg_advance_rule s hr (s.readN a.toNat (registerWidth r))
  refine ⟨?_, hframe, hend⟩
  rw [advance, readReg_complete _ _ hr, readReg_writeReg_readN, readN_toNat]

/-- Settles O21: MOV is the index check, and a register write of the two immediate bytes, high byte first. -/
theorem movWritesTheImmediate : Obligations.MovWritesTheImmediate := by
  intro s r hi lo
  have hbytes : s.bytesOf (.mov r (joinBytes hi lo)) = ⟨s.cfg.opc.byte .mov, r, hi, lo⟩ :=
    congrArg₂ (Record.mk _ r) (hiByte_joinBytes hi lo) (loByte_joinBytes hi lo)
  obtain ⟨hindex, hdone⟩ := exec_withRegister
    (rfl : exec (.mov r (joinBytes hi lo)) s = .next (s.withRegister (s.bytesOf (.mov r (joinBytes hi lo))) r _))
  rw [hbytes] at hindex
  refine ⟨hindex, fun hr => ?_⟩
  obtain ⟨hval, hframe, hend⟩ := writeReg_advance_rule s hr (joinBytes hi lo)
  refine ⟨_, hdone hr, ?_, hframe, hend⟩
  rw [hval, joinBytes_toNat]

/-! ### STORE -/

theorem exec_store (s : State) (r : Byte) (a : Word) :
    (32 ≤ r.toNat → Faults (.store r a) s .outOfBounds (Claims.bytesOf s .store r a) (r.setWidth 16)) ∧
    (r.toNat < 32 →
      s.cfg.memSize < a.toNat + registerWidth r ∨
        (a.toNat < s.cfg.progBase + s.cfg.progSize ∧ s.cfg.progBase < a.toNat + registerWidth r) →
      Faults (.store r a) s .outOfBounds (Claims.bytesOf s .store r a) a) ∧
    (r.toNat < 32 → a.toNat + registerWidth r ≤ s.cfg.memSize →
      s.cfg.progBase + s.cfg.progSize ≤ a.toNat ∨ a.toNat + registerWidth r ≤ s.cfg.progBase →
      exec (.store r a) s = .next (s.writeN a.toNat (registerWidth r) (s.readReg r)).advance) := by
  obtain ⟨hindex, hrest⟩ :=
    exec_withRegister (rfl : exec (.store r a) s = .next (s.withRegister (s.bytesOf (.store r a)) r _))
  obtain ⟨hin, hoff, e⟩ | ⟨hbad, e⟩ := memWrite_cases s a.toNat (registerWidth r) (s.readReg r) <;> rw [e] at hrest
  · exact ⟨hindex, fun _ _ => by omega, fun hr _ _ => hrest hr⟩
  · exact ⟨hindex, fun hr _ => hrest hr, fun _ _ _ => by omega⟩

/-- The bytes of a stored value, high byte first (rules R47, R48). -/
theorem State.byte_writeN_toNat (s : State) (a : Nat) (v : Word) {n k : Nat} (hn : n = 1 ∨ n = 2) (hk : k < n) :
    ((s.writeN a n v).byte (a + k)).toNat = v.toNat / 256 ^ (n - 1 - k) % 256 := by
  have hhi : v.toNat / 256 < 256 := by omega
  obtain ⟨rfl, rfl⟩ | ⟨rfl, rfl⟩ | ⟨rfl, rfl⟩ : n = 1 ∧ k = 0 ∨ n = 2 ∧ k = 0 ∨ n = 2 ∧ k = 1 := by omega
  · simp [byte_writeN_one, loByte_toNat]
  · simp [byte_writeN_two, hiByte_toNat, Nat.mod_eq_of_lt hhi]
  · simp [byte_writeN_two, loByte_toNat]

/-- A store keeps every register whose bytes it does not meet. -/
theorem State.readReg_writeN_other {s : State} {a n : Nat} {q : Byte} (v : Word) (hn : n = 1 ∨ n = 2)
    (h : registerAddress s.cfg q + registerWidth q ≤ a ∨ a + n ≤ registerAddress s.cfg q) :
    (s.writeN a n v).readReg q = s.readReg q := by
  unfold readReg
  rw [writeN_cfg]
  exact readN_congr (registerWidth_eq q) fun k _ _ => byte_writeN_other s v hn (by omega)

/-- Completion touches no byte off the mirror (rule R23). -/
theorem State.byte_complete_other (s : State) (target : Word) {k : Nat} (h : k ≠ s.mirrorAddress)
    (h' : k ≠ s.mirrorAddress + 1) : (s.complete target).byte k = s.byte k := by
  rw [byte_complete, if_neg h', if_neg h]

/-- Settles O20: STORE is its checks and a store of the register's bytes, after which completion writes the mirror alone. -/
theorem storeCopiesTheRegisterIntoMemory : Obligations.StoreCopiesTheRegisterIntoMemory := by
  intro s r a
  obtain ⟨hindex, haddress, hdone⟩ := exec_store s r a
  refine ⟨hindex, fun hr h => haddress hr (.inl h), fun hr h h' => haddress hr (.inr ⟨h, h'⟩),
    fun hr hin hoff => ⟨_, hdone hr hin hoff, ?_⟩⟩
  have hw := registerWidth_eq r
  refine ⟨fun k hk h1 h2 => ?_, by ext1 <;> simp, ?_, fun q hq hdisjoint => ?_,
    by simpa using endsAt_advance (s.writeN a.toNat (registerWidth r) (s.readReg r))⟩
  · rw [mirrorAddress_eq] at h1 h2
    rw [advance, byte_complete_other _ _ (by rwa [mirrorAddress_eq]) (by rwa [mirrorAddress_eq]), byte_writeN_toNat s _ _ hw hk]
  · exact sameMemoryBut_complete _ (writeN_cfg _ _ _ _) fun k hk => byte_writeN_other s _ hw hk
  · rw [advance, readReg_complete _ _ hq, readReg_writeN_other _ hw hdisjoint]

end Sys2Proof.Machine
end

section
/-! PROOFS. The I/O, system and miscellaneous instructions (46_io_system_misc.md). IN and OUT are the check of their register index
(exec_withRegister); each completion is a body that stored nothing (complete_rule_of_mem_eq), but for IN's, which is a register
write (writeReg_advance_rule). -/

namespace Sys2Proof.Machine

open Sys2Proof State Claims

/-! ### IN and OUT -/

/-- The ends of IN, in the order of its checks (rule R221). -/
theorem exec_inp (s : State) (r : Byte) (x : Word) :
    (32 ≤ r.toNat → Faults (.inp r x) s .outOfBounds (Claims.bytesOf s .inp r x) (r.setWidth 16)) ∧
    (r.toNat < 32 → s.inStream[s.inPos]? = none → Faults (.inp r x) s .ioError (Claims.bytesOf s .inp r x) 0) ∧
    (r.toNat < 32 → ∀ {b : Byte}, s.inStream[s.inPos]? = some b →
      exec (.inp r x) s = .next ((s.setInPos (s.inPos + 1)).writeReg r (b.setWidth 16)).advance) := by
  obtain ⟨hindex, hrest⟩ :=
    exec_withRegister (rfl : exec (.inp r x) s = .next (s.withRegister (s.bytesOf (.inp r x)) r _))
  refine ⟨hindex, fun hr hend => ?_, fun hr b hb => ?_⟩
  · rw [hend] at hrest
    exact hrest hr
  · rw [hb] at hrest
    exact hrest hr

/-- A byte, zero-extended, fits every register: reducing to the register's width changes nothing. -/
theorem setWidth_toNat_mod_bits (b r : Byte) : (b.setWidth 16).toNat % 2 ^ bits r = b.toNat := by
  have := b.isLt
  rw [BitVec.toNat_setWidth]
  obtain h | h := bits_eq r <;> rw [h] <;> omega

/-- Settles O22: IN is its two checks, and a register write of the zero-extended byte after the input position has moved. -/
theorem inReadsTheNextInputByte : Obligations.InReadsTheNextInputByte := by
  intro s r x
  obtain ⟨hindex, hexhausted, hdone⟩ := exec_inp s r x
  refine ⟨hindex, fun hr hend => hexhausted hr (List.getElem?_eq_none hend), fun b hr hb => ⟨_, hdone hr hb, ?_⟩⟩
  obtain ⟨hval, ⟨-, hregs, hmem⟩, hends⟩ := writeReg_advance_rule (s.setInPos (s.inPos + 1)) hr (b.setWidth 16)
  exact ⟨hval.trans (setWidth_toNat_mod_bits b r), by simp, by ext1 <;> simp, hregs, hmem, hends⟩

/-- Settles O23: OUT is its check, and a completion after the low byte is appended. -/
theorem outAppendsTheLowByte : Obligations.OutAppendsTheLowByte := by
  intro s r x
  obtain ⟨hindex, hdone⟩ :=
    exec_withRegister (rfl : exec (.out r x) s = .next (s.withRegister (s.bytesOf (.out r x)) r _))
  exact ⟨hindex, fun hr => ⟨_, loByte (s.readReg r), hdone hr, by simp, loByte_toNat _, by ext1 <;> simp,
    complete_rule_of_mem_eq (s.pc + 4) rfl rfl⟩⟩

/-! ### LAB, NOP, SYS and HALT -/

/-- Settles O24: both are the completion at the next offset. -/
theorem labAndNopOnlyAdvance : Obligations.LabAndNopOnlyAdvance := fun _ _ _ _ =>
  ⟨onlyMovesPc_of_complete rfl, onlyMovesPc_of_complete rfl⟩

/-- A body that a Running CORE completes leaves it Running or Halted (rule R28). -/
theorem Body.state_ne_faulted {i : Instr} {s u : State} {target : Word} (hb : Body i s u target) (hs : s.state = .running) :
    u.state ≠ .faulted := by
  obtain ⟨hu, -⟩ | ⟨hu, -⟩ := hb.engine <;> simp [hu, hs]

/-- Settles O25: an instruction that leaves a Running CORE Faulted has taken a fault, and of this kind only SYS takes one. -/
theorem sysRaisesUnimplementedOpcode : Obligations.SysRaisesUnimplementedOpcode := by
  refine ⟨fun _ _ _ _ => rfl, fun i s t hs ht hfaulted hkind => ?_⟩
  obtain ⟨k, info, -, -, hsys, rfl⟩ | ⟨u, target, rfl, hb⟩ := ends_of_exec ht
  · exact hsys hkind
  · exact absurd (u.complete_state target ▸ hfaulted) (hb.state_ne_faulted hs)

/-- A Halted CORE has no step (rule R291). -/
theorem step_of_halted {s : State} (h : s.state = .halted) : step s = .fault .alreadyHalted := by
  rw [step, h]

/-- Settles O26: HALT is a completion after the exit status and the engine state are written. -/
theorem haltRecordsTheStatusAndAdvances : Obligations.HaltRecordsTheStatusAndAdvances := by
  intro s x status
  have hhalted : ((s.setExitCode status).setState .halted).advance.state = .halted := advance_state _
  obtain ⟨hregs, hmem, hends⟩ :=
    complete_rule_of_mem_eq (s := s) (u := (s.setExitCode status).setState .halted) (s.pc + 4) rfl rfl
  exact ⟨_, rfl, hhalted, by simp, by ext1 <;> simp, hregs, hmem, hends, step_of_halted hhalted⟩

end Sys2Proof.Machine
end

section
/-! PROOFS. Exceptions (60_exceptions.md). A fault's record holds the fetched bytes, which an instruction's encoding gives back
(bytesOf_of_decodeRecord). The aborted start-up is an invariant of the host's session, kept by each of its operations and by
every step (resetUntilLoaded_of_reachable). -/

namespace Sys2Proof.Machine

open Sys2Proof State

/-! ### Faults of the CORE -/

/-- The bytes that a decoded instruction's fault records are those it was decoded from (log entry 8). -/
theorem State.bytesOf_of_decodeRecord {s : State} {b : Record} {i : Instr} (h : decodeRecord s.cfg.opc b = .ok i) :
    s.bytesOf i = b := encode_of_decodeRecord h

/-- A Faulted CORE has no step (rules R254, R291). -/
theorem step_of_faulted {s : State} (h : s.state = .faulted) : step s = .fault .alreadyFaulted := by
  rw [step, h]

/-- Settles O36: a step ends Faulted by the fetch's fault, the decoder's or the decoded instruction's, never by a body. -/
theorem faultsLeaveEverythingElseUnchanged : Obligations.FaultsLeaveEverythingElseUnchanged := by
  refine fun s t hst hfaulted => ⟨?_, step_of_faulted hfaulted⟩
  obtain ⟨hs, ⟨hf, rfl⟩ | ⟨b, -, hf, -, rfl⟩ | ⟨b, i, hf, hd, -, hends⟩⟩ := step_cases hst <;> rw [hf]
  · exact ⟨.outOfBounds, s.opcodeAddress, by decide, by decide, rfl⟩
  · exact ⟨.invalidOpcode, s.opcodeAddress, by decide, by decide, rfl⟩
  · obtain ⟨k, info, hk, hk', -, rfl⟩ | ⟨u, target, rfl, hb⟩ := hends
    · exact ⟨k, info, hk, hk', by rw [bytesOf_of_decodeRecord hd]; rfl⟩
    · exact absurd (u.complete_state target ▸ hfaulted) (hb.state_ne_faulted hs)

/-! ### Start-up -/

/-- The loader's own errors are raised in Loaded only (rules R258, R286). -/
theorem State.loadBlock_error_loaded {s : State} {size : Nat} {data : List Byte} {e : HostError}
    (h : s.loadBlock size data = .error e) (he : e ≠ .notAllowed) : s.state = .loaded := by
  obtain ⟨hs, -⟩ | ⟨hs, -⟩ | ⟨hs, -⟩ | ⟨-, e'⟩ := loadBlock_cases s size data
  · exact hs
  · exact hs
  · exact hs
  · exact absurd (Except.error.inj (h.symm.trans e')) he

/-- So is the error of the host's file I/O (rules R258, R286). -/
theorem State.loadUnreadable_error_loaded {s : State} {e : HostError} (h : s.loadUnreadable = .error e)
    (he : e ≠ .notAllowed) : s.state = .loaded := by
  obtain ⟨hs, -⟩ | ⟨-, e'⟩ := loadUnreadable_cases s
  · exact hs
  · exact absurd (Except.error.inj (h.symm.trans e')) he

namespace Session

/-- The CORE is its reset state, but for the input stream that the environment supplied, and no load was made. -/
def AtReset (h : Session) : Prop := h.core = State.resetWith h.core.cfg h.core.inStream ∧ h.loadDone = false

/-- Start-up was aborted, or the CORE is Loaded and no load was made. -/
def Unloaded (h : Session) : Prop := h.startupAborted = true ∨ h.core.state = .loaded ∧ h.loadDone = false

/-- The invariant of start-up: until a load is made or `run` is given, the CORE is at reset (rules R258, R286). -/
def ResetUntilLoaded (h : Session) : Prop := h.Unloaded → h.AtReset

theorem AtReset.core_state {h : Session} (hr : h.AtReset) : h.core.state = .loaded := by rw [hr.1]; rfl

theorem resetUntilLoaded_fresh (c : Config) (input : List Byte) : (fresh c input).ResetUntilLoaded := fun _ => ⟨rfl, rfl⟩

/-- Once a load was made or `run` was given, and start-up was not aborted, nothing is claimed. -/
theorem resetUntilLoaded_of_started {s : State} {loadDone : Bool} (h : s.state = .loaded → loadDone = true) :
    (⟨s, loadDone, false⟩ : Session).ResetUntilLoaded := by
  rintro (ha | ⟨hs, hd⟩)
  · cases ha
  · exact absurd ((h hs).symm.trans hd) (by decide)

section Preservation

variable {h : Session} (hi : h.ResetUntilLoaded)
include hi

/-- A load keeps the invariant where its failures are those of a Loaded CORE: it is refused, or made, or aborts start-up with the
CORE as it was. -/
theorem ResetUntilLoaded.finishLoad {made : Except HostError State}
    (hm : ∀ e, made = .error e → e ≠ .notAllowed → h.core.state = .loaded) : (h.finishLoad made).1.ResetUntilLoaded := by
  obtain ⟨-, e⟩ | ⟨hd, -, ⟨s, -, e⟩ | ⟨err, hne, he, e⟩⟩ := finishLoad_cases h made <;> rw [e]
  · exact hi
  · exact resetUntilLoaded_of_started fun _ => rfl
  · exact fun _ => ⟨(hi (.inr ⟨hm err he hne, hd⟩)).1, rfl⟩

/-- `run` keeps the invariant: it is refused, or leaves a Running CORE. -/
theorem ResetUntilLoaded.apply_run : (h.apply .run).1.ResetUntilLoaded := by
  simp only [Session.apply, State.run]
  by_cases ha : h.startupAborted = true
  · rw [if_pos ha]
    exact hi
  · rw [if_neg ha]
    by_cases hs : h.core.state = .loaded
    · rw [if_pos hs]
      exact resetUntilLoaded_of_started (s := h.core.setState .running) (by nofun)
    · rw [if_neg hs]
      exact hi

/-- Supplying input keeps the invariant: it changes the input stream, or nothing. -/
theorem ResetUntilLoaded.apply_supply (bytes : List Byte) : (h.apply (.supply bytes)).1.ResetUntilLoaded := by
  simp only [Session.apply, State.supply]
  by_cases hs : h.core.state = .loaded ∨ h.core.state = .running
  · rw [if_pos hs]
    intro hu
    obtain ⟨hcore, hd⟩ := hi hu
    exact ⟨congrArg (·.setInStream (h.core.inStream ++ bytes)) hcore, hd⟩
  · rw [if_neg hs]
    exact hi

/-- Every operation of the host keeps the invariant. -/
theorem ResetUntilLoaded.apply (op : HostOp) : (h.apply op).1.ResetUntilLoaded := by
  cases op with
  | reset input => exact resetUntilLoaded_fresh h.core.cfg input
  | load image => exact hi.finishLoad fun _ => loadBlock_error_loaded
  | loadBlock size data => exact hi.finishLoad fun _ => loadBlock_error_loaded
  | loadUnreadable => exact hi.finishLoad fun _ => loadUnreadable_error_loaded
  | run => exact hi.apply_run
  | supply bytes => exact hi.apply_supply bytes

/-- A step keeps the invariant: only a Running CORE has one, so the session had left start-up, and no step leads back. -/
theorem ResetUntilLoaded.coreStep : h.coreStep.ResetUntilLoaded := by
  unfold Session.coreStep
  cases hst : step h.core with
  | next t =>
    obtain ⟨hrun, -⟩ := step_cases hst
    rintro (ha | ⟨ht, -⟩)
    · exact absurd ((hi (.inl ha)).core_state.symm.trans hrun) (by decide)
    · obtain he | he | ⟨he, -⟩ := step_engine hst <;> exact absurd (ht.symm.trans he) (by decide)
  | fault => exact hi
  | refused => exact hi

end Preservation

/-- A fresh session meets the invariant, and each way to a further session keeps it. -/
theorem resetUntilLoaded_of_reachable {h : Session} (hr : h.Reachable) : h.ResetUntilLoaded := by
  induction hr with
  | fresh c input _ => exact resetUntilLoaded_fresh c input
  | host _ op _ ih => exact ih.apply op
  | core _ _ ih => exact ih.coreStep

end Session

/-- Settles O56: the invariant of start-up holds of every session that a host comes to. -/
theorem abortedStartupLeavesTheResetState : Obligations.AbortedStartupLeavesTheResetState := fun _ hr hu =>
  Session.resetUntilLoaded_of_reachable hr hu

/-! ### The diagnostic port -/

/-- The dedicated registers that the diagnostic port shows of a stopped CORE (rule R259). -/
theorem State.diagnosticRegisters_of_stopped {s : State} (h : s.state = .halted ∨ s.state = .faulted) :
    s.diagnosticRegisters =
      .ok ⟨s.pc, s.flag, s.sp, s.rasCount, s.ras, s.state, s.exitCode, s.fault, s.out⟩ := by
  simp [diagnosticRegisters, stopped, h]

/-- Before the CORE has stopped the port's registers are refused (rule R259). -/
theorem State.diagnosticRegisters_of_not_stopped {s : State} (h : s.state = .loaded ∨ s.state = .running) :
    s.diagnosticRegisters = .error .notAllowed := by
  obtain h | h := h <;> simp [diagnosticRegisters, stopped, h]

/-- Settles O57: each field of the port's view is the register of that name. -/
theorem diagnosticPortShowsTheDedicatedRegisters : Obligations.DiagnosticPortShowsTheDedicatedRegisters := fun _ =>
  ⟨fun h => ⟨_, diagnosticRegisters_of_stopped h, rfl, rfl, rfl, rfl, rfl, rfl, rfl, rfl, rfl⟩,
    diagnosticRegisters_of_not_stopped⟩

end Sys2Proof.Machine
end

section
/-! PROOFS. Reset, the host's operations and the instruction cycle (70_reset_and_hazards.md). The reset memory lists nothing, so
every read of it gives 0 (readN_resetWith). Each operation of the host is said once as an equation per case or a case lemma
(apply_run_cases, apply_supply_cases, finishLoad_ok, finishLoad_error), and the statements about sessions are put together
from those. -/

namespace Sys2Proof.Machine

open Sys2Proof State

/-! ### The instruction cycle -/

/-- A record that decodes makes the step its instruction's meaning (rule R290). -/
theorem step_of_decode_ok {s : State} {b : Record} {i : Instr} (hs : s.state = .running) (hf : s.fetch = some b)
    (hd : decodeRecord s.cfg.opc b = .ok i) : step s = exec i s := by
  simp [step, hs, hf, hd]

/-- Settles O33: the fetch reads those four bytes, and the step is what they decode to. -/
theorem stepRunsTheDecodedInstruction : Obligations.StepRunsTheDecodedInstruction := fun _ _ hs hpc hd =>
  step_of_decode_ok hs (fetch_eq hpc) hd

/-- A Running CORE has a step whether the fetch fails, the record does not decode, or it is executed (rules R290, R291). -/
theorem exists_step_of_running {s : State} (hs : s.state = .running) : ∃ t, step s = .next t := by
  cases hf : s.fetch with
  | none => exact ⟨_, step_of_fetch_none hs hf⟩
  | some b =>
    cases hd : decodeRecord s.cfg.opc b with
    | error e => exact ⟨_, step_of_decode_error hs hf hd⟩
    | ok i =>
      obtain ⟨t, ht, -⟩ := exec_cases i s
      exact ⟨t, (step_of_decode_ok hs hf hd).trans ht⟩

/-- Settles O35: a state with a step is Running, and a Running state has one. -/
theorem stepsExistExactlyWhenRunning : Obligations.StepsExistExactlyWhenRunning := fun _ =>
  ⟨fun ⟨_, ht⟩ => (step_cases ht).1, exists_step_of_running⟩

/-! ### Reset -/

/-- Memory is zero after reset (rules R33, R280). -/
theorem State.byte_resetWith (c : Config) (input : List Byte) (a : Nat) : (resetWith c input).byte a = 0 := rfl

/-- So is a value of either width read from it. -/
theorem State.readN_resetWith (c : Config) (input : List Byte) (a : Nat) {n : Nat} (hn : n = 1 ∨ n = 2) :
    (resetWith c input).readN a n = 0 := by
  obtain rfl | rfl := hn <;> simp [readN, byte_resetWith, joinBytes]

/-- The cursor starts at STACK_TOP, which a legal configuration keeps within 16 bits (rules R5, R280). -/
theorem State.resetWith_sp_toNat {c : Config} (h : c.Legal) (input : List Byte) :
    (resetWith c input).sp.toNat = c.stackTop := by
  rw [resetWith, BitVec.toNat_ofNat, Nat.mod_eq_of_lt (stackTop_lt h)]

/-- Settles O48: reset makes the reset state of the session's configuration, which holds these values. -/
theorem resetLeavesTheSpecValues : Obligations.ResetLeavesTheSpecValues := fun h input hL =>
  ⟨resetWith h.core.cfg input, rfl, rfl, byte_resetWith _ _, rfl, rfl, resetWith_sp_toNat hL input, rfl,
    List.length_replicate, fun _ => List.eq_of_mem_replicate, rfl, rfl, rfl, rfl, rfl⟩

/-- Settles O49: the registers and the mirror are values read from the reset memory. -/
theorem registersReadZeroAfterReset : Obligations.RegistersReadZeroAfterReset := fun _ _ q _ =>
  ⟨readN_resetWith _ _ _ (registerWidth_eq q), readN_resetWith _ _ _ (.inr rfl)⟩

/-! ### The loader's block write -/

section Loader

variable {s : State} {data : List Byte}

/-- A block that fits the program segment is copied to PROG_BASE in Loaded (rule R285). -/
theorem State.loadBlock_of_fits (hs : s.state = .loaded) (h : data.length ≤ s.cfg.progSize) :
    s.loadBlock data.length data = .ok (s.setMem (s.mem.writeBlock s.cfg.progBase data)) := by
  obtain ⟨-, -, -, e⟩ | ⟨-, h', -⟩ | ⟨-, -, h', -⟩ | ⟨h', -⟩ := loadBlock_cases s data.length data
  · exact e
  · exact absurd rfl h'
  · omega
  · exact absurd hs h'

/-- A longer one is not (rule R286). -/
theorem State.loadBlock_of_tooLong (hs : s.state = .loaded) (h : s.cfg.progSize < data.length) :
    s.loadBlock data.length data = .error .outOfBounds := by
  simp [loadBlock, hs, h]

/-- The length of the data is checked before the length of the block (rule R258; log entry 10). -/
theorem State.loadBlock_of_length_ne {size : Nat} (hs : s.state = .loaded) (h : data.length ≠ size) :
    s.loadBlock size data = .error .sizeMismatch := by
  simp [loadBlock, hs, h]

/-- Outside Loaded no block is written (rule R284). -/
theorem State.loadBlock_of_not_loaded (size : Nat) (hs : s.state ≠ .loaded) :
    s.loadBlock size data = .error .notAllowed := by
  simp [loadBlock, hs]

end Loader

/-- An image that the host cannot read is an IOError in Loaded (rules R258, R286). -/
theorem State.loadUnreadable_of_loaded {s : State} (hs : s.state = .loaded) : s.loadUnreadable = .error .ioError := by
  simp [loadUnreadable, hs]

/-- Outside Loaded the attempt is not allowed (rule R284). -/
theorem State.loadUnreadable_of_not_loaded {s : State} (hs : s.state ≠ .loaded) :
    s.loadUnreadable = .error .notAllowed := by
  simp [loadUnreadable, hs]

namespace Session

/-! ### The end of a load -/

section Load

variable {h : Session}

/-- The first load of a start-up that was not aborted is made, if the loader made it (rule R285). -/
theorem finishLoad_ok (hd : h.loadDone = false) (ha : h.startupAborted = false) {made : Except HostError State} {s : State}
    (hm : made = .ok s) : h.finishLoad made = (⟨s, true, false⟩, none) := by
  simp [finishLoad, hd, ha, hm]

/-- It aborts start-up, if the loader failed (rules R258, R286). -/
theorem finishLoad_error (hd : h.loadDone = false) (ha : h.startupAborted = false) {made : Except HostError State}
    {e : HostError} (hm : made = .error e) (he : e ≠ .notAllowed) :
    h.finishLoad made = (⟨h.core, false, true⟩, some e) := by
  obtain ⟨hr, -⟩ | ⟨-, -, ⟨s, hs, -⟩ | ⟨e', -, he', e''⟩⟩ := finishLoad_cases h made
  · simp [hd, ha, hm, he] at hr
  · cases hs.symm.trans hm
  · cases he'.symm.trans hm
    exact e''

/-- A load that the loader does not allow is refused (log entry 9). -/
theorem finishLoad_notAllowed {made : Except HostError State} (hm : made = .error .notAllowed) :
    h.finishLoad made = (h, some .notAllowed) := by
  simp [finishLoad, hm]

/-- There is at most one load per reset (rule R285; log entry 9). -/
theorem finishLoad_of_loadDone (hd : h.loadDone = true) (made : Except HostError State) :
    h.finishLoad made = (h, some .notAllowed) := by
  simp [finishLoad, hd]

/-- A load that reports an error leaves the CORE as it was (rules R258, R286). -/
theorem finishLoad_core_of_error {made : Except HostError State} {e : HostError} (he : (h.finishLoad made).2 = some e) :
    (h.finishLoad made).1.core = h.core := by
  obtain ⟨-, e'⟩ | ⟨-, -, ⟨s, -, e'⟩ | ⟨_, -, -, e'⟩⟩ := finishLoad_cases h made <;> rw [e'] at he ⊢
  cases he

end Load

/-! ### `run` and the supply of input -/

/-- `run` sets a Loaded CORE Running where start-up was not aborted, and is refused elsewhere (rules R286, R288; log entry 9). -/
theorem apply_run_cases (h : Session) :
    (h.core.state = .loaded ∧ h.startupAborted = false ∧
      h.apply .run = (⟨h.core.setState .running, h.loadDone, false⟩, none)) ∨
    ((h.core.state ≠ .loaded ∨ h.startupAborted = true) ∧ h.apply .run = (h, some .notAllowed)) := by
  by_cases hs : h.core.state = .loaded
  · cases ha : h.startupAborted with
    | false => exact .inl ⟨hs, rfl, by simp [apply, State.run, ha, hs]⟩
    | true => exact .inr ⟨.inr rfl, by simp [apply, ha]⟩
  · exact .inr ⟨.inl hs, by simp [apply, State.run, hs]⟩

/-- Supplied bytes follow those already supplied in Loaded and Running, and are refused elsewhere (rule R284; log entries 9
and 10). -/
theorem apply_supply_cases (h : Session) (bytes : List Byte) :
    ((h.core.state = .loaded ∨ h.core.state = .running) ∧
      h.apply (.supply bytes) =
        (⟨h.core.setInStream (h.core.inStream ++ bytes), h.loadDone, h.startupAborted⟩, none)) ∨
    (¬(h.core.state = .loaded ∨ h.core.state = .running) ∧ h.apply (.supply bytes) = (h, some .notAllowed)) := by
  by_cases hs : h.core.state = .loaded ∨ h.core.state = .running
  · exact .inl ⟨hs, by simp [apply, State.supply, hs]⟩
  · exact .inr ⟨hs, by simp [apply, State.supply, hs]⟩

/-- No operation that reports an error changes the CORE. -/
theorem apply_core_of_error {h : Session} {op : HostOp} {e : HostError} (he : (h.apply op).2 = some e) :
    (h.apply op).1.core = h.core := by
  cases op with
  | reset input => cases he
  | load image => exact finishLoad_core_of_error he
  | loadBlock size data => exact finishLoad_core_of_error he
  | loadUnreadable => exact finishLoad_core_of_error he
  | run =>
    obtain ⟨-, -, e'⟩ | ⟨-, e'⟩ := apply_run_cases h <;> rw [e'] at he ⊢
    cases he
  | supply bytes =>
    obtain ⟨-, e'⟩ | ⟨-, e'⟩ := apply_supply_cases h bytes <;> rw [e'] at he ⊢
    cases he

end Session

/-- Settles O54: the two ends of `run` and of a supply, and what every operation that fails leaves. -/
theorem hostOperationsKeepToTheirStates : Obligations.HostOperationsKeepToTheirStates := by
  refine fun h => ⟨fun hs ha => ?_, fun hs => ?_, fun hs bytes => ?_, fun _ _ => Session.apply_core_of_error⟩
  · obtain ⟨-, -, e⟩ | ⟨hn | ha', -⟩ := h.apply_run_cases
    · exact e
    · exact absurd hs hn
    · exact absurd (ha.symm.trans ha') (by decide)
  · obtain ⟨hs', -⟩ | ⟨-, e⟩ := h.apply_run_cases
    · exact absurd hs' hs
    · exact ⟨congrArg Prod.fst e, congrArg Prod.snd e⟩
  · obtain ⟨-, e⟩ | ⟨hn, -⟩ := h.apply_supply_cases bytes
    · exact e
    · exact absurd hs hn

/-- Settles O53: the end of each load, given what the loader makes of it; the flags of the session refuse what comes after. -/
theorem loadCopiesTheImageOnce : Obligations.LoadCopiesTheImageOnce := by
  refine ⟨fun h image _ hs hd ha => ⟨fun hlen => ?_, fun hlen => ?_, fun size hsize => ?_, rfl, ?_, rfl⟩,
    fun h image size hs => ⟨?_, ?_, ?_⟩⟩
  · exact ⟨_, Session.finishLoad_ok hd ha (loadBlock_of_fits hs hlen), rfl,
      fun _ _ => Memory.read_writeBlock_of_getElem? _ _, fun _ => Memory.read_writeBlock_other _,
      fun _ => Session.finishLoad_of_loadDone rfl _, Session.finishLoad_of_loadDone rfl _⟩
  · exact Session.finishLoad_error hd ha (loadBlock_of_tooLong hs hlen) (by decide)
  · exact Session.finishLoad_error hd ha (loadBlock_of_length_ne hs hsize) (by decide)
  · exact Session.finishLoad_error hd ha (loadUnreadable_of_loaded hs) (by decide)
  · exact Session.finishLoad_notAllowed (loadBlock_of_not_loaded _ hs)
  · exact Session.finishLoad_notAllowed (loadBlock_of_not_loaded _ hs)
  · exact Session.finishLoad_notAllowed (loadUnreadable_of_not_loaded hs)

end Sys2Proof.Machine
end
